-- ==== Sys2Proof/Word.lean ====
section
/-! DEFINITION. The word types of the core (R5, R6, R20, R22, R72): every value is unsigned. -/

namespace Sys2Proof

/-- A general register, a timer, a memory cell: 8 bits (`REG_W`, R5, R20). -/
abbrev Byte := BitVec 8

/-- `I`, `PC`, a stack entry, an instruction word: 16 bits (R22, R23, R25, R72). -/
abbrev Word := BitVec 16

/-- The `nnn` immediate: 12 bits (R72). -/
abbrev Addr12 := BitVec 12

/-- The number of a general register `V0` .. `VF` or of a key, and the row count `n`:
one nibble used as a number (R20, R30, R72, R73). -/
abbrev Nibble := Fin 16

/-- `zext_16` of a 12-bit address (R7, R73). -/
abbrev zext16 (a : Addr12) : Word := a.setWidth 16

end Sys2Proof
end

