-- ==== Sys2Proof/Syntax.lean ====
section
/-! DEFINITION. The 34 instructions of R78 (spec/opcode_table.json), one constructor a row. -/

namespace Sys2Proof

/-- An instruction. The field letters are R72's: `x`, `y` register numbers, `n` a row count,
`kk` an 8-bit and `nnn` a 12-bit immediate. -/
inductive Instr
  /-- `00E0` (R140). -/
  | cls
  /-- `00EE` (R102). -/
  | ret
  /-- `1nnn` (R100). -/
  | jp (nnn : Addr12)
  /-- `2nnn` (R101). -/
  | call (nnn : Addr12)
  /-- `3xkk` (R103). -/
  | seImm (x : Nibble) (kk : Byte)
  /-- `4xkk` (R104). -/
  | sneImm (x : Nibble) (kk : Byte)
  /-- `5xy0` (R105). -/
  | seReg (x y : Nibble)
  /-- `6xkk` (R110). -/
  | ldImm (x : Nibble) (kk : Byte)
  /-- `7xkk` (R111). -/
  | addImm (x : Nibble) (kk : Byte)
  /-- `8xy0` (R112). -/
  | ldReg (x y : Nibble)
  /-- `8xy1` (R113). -/
  | orReg (x y : Nibble)
  /-- `8xy2` (R114). -/
  | andReg (x y : Nibble)
  /-- `8xy3` (R115). -/
  | xorReg (x y : Nibble)
  /-- `8xy4` (R116). -/
  | addReg (x y : Nibble)
  /-- `8xy5` (R117). -/
  | sub (x y : Nibble)
  /-- `8xy6` (R118); `y` is decoded and has no effect (R79). -/
  | shr (x y : Nibble)
  /-- `8xy7` (R119). -/
  | subn (x y : Nibble)
  /-- `8xyE` (R120); `y` is decoded and has no effect (R79). -/
  | shl (x y : Nibble)
  /-- `9xy0` (R106). -/
  | sneReg (x y : Nibble)
  /-- `Annn` (R130). -/
  | ldI (nnn : Addr12)
  /-- `Bnnn` (R107); `x` is the top nibble of the same `nnn` (R74, WellFormed). -/
  | jpOff (x : Nibble) (nnn : Addr12)
  /-- `Cxkk` (R170). -/
  | rnd (x : Nibble) (kk : Byte)
  /-- `Dxyn` (R141). -/
  | drw (x y n : Nibble)
  /-- `Ex9E` (R160). -/
  | skp (x : Nibble)
  /-- `ExA1` (R161). -/
  | sknp (x : Nibble)
  /-- `Fx07` (R150). -/
  | ldVxDt (x : Nibble)
  /-- `Fx0A` (R162). -/
  | ldVxK (x : Nibble)
  /-- `Fx15` (R151). -/
  | ldDtVx (x : Nibble)
  /-- `Fx18` (R152). -/
  | ldStVx (x : Nibble)
  /-- `Fx1E` (R131). -/
  | addI (x : Nibble)
  /-- `Fx29` (R132). -/
  | ldF (x : Nibble)
  /-- `Fx33` (R133). -/
  | ldB (x : Nibble)
  /-- `Fx55` (R134). -/
  | stRegs (x : Nibble)
  /-- `Fx65` (R135). -/
  | ldRegs (x : Nibble)
  deriving DecidableEq, Repr

end Sys2Proof
end

