-- ==== Sys2Proof/WellFormed.lean ====
section
/-! DEFINITION. Which terms of `Instr` some word encodes. The widths of R72 are in the field types;
the one relation between fields is `Bnnn`'s: its register number is the top nibble of its `nnn`
(R74, R83, R107). -/

namespace Sys2Proof

/-- `x` is the top nibble of `nnn` in a `Bnnn` (R107 "and `x = w[11:8]`, the top nibble of the same
`nnn`"); every other term is well formed. -/
def Instr.wellFormed : Instr → Bool
  | .jpOff x nnn => nnn.toNat / 256 == x.val
  | .cls | .ret | .jp _ | .call _ | .ldI _ => true
  | .seImm _ _ | .sneImm _ _ | .ldImm _ _ | .addImm _ _ | .rnd _ _ => true
  | .seReg _ _ | .sneReg _ _ | .ldReg _ _ | .orReg _ _ | .andReg _ _ | .xorReg _ _ => true
  | .addReg _ _ | .sub _ _ | .shr _ _ | .subn _ _ | .shl _ _ => true
  | .drw _ _ _ => true
  | .skp _ | .sknp _ | .ldVxDt _ | .ldVxK _ | .ldDtVx _ | .ldStVx _ => true
  | .addI _ | .ldF _ | .ldB _ | .stRegs _ | .ldRegs _ => true

end Sys2Proof
end

