-- ==== Sys2Proof/Decode.lean ====
section
/-! DEFINITION. The decoder (R72, R75), total on words and on bytes, rejecting by name; the encoder,
written from the formats of R74; and the opcode list of R78 as mask and match rows.
Bit positions and patterns are the spec's, PRESUMED there from general knowledge (assumption 12). -/

namespace Sys2Proof

/-! ## Bytes and words (R51: big-endian; assumption 12) -/

/-- `hi ++ lo`: the byte at the lower address is the more significant (R51, D1). -/
def wordOfBytes (hi lo : Byte) : Word := BitVec.ofNat 16 (hi.toNat * 256 + lo.toNat)

/-- `w[15:8]`. -/
def hiByte (w : Word) : Byte := w.extractLsb' 8 8

/-- `w[7:0]`. -/
def loByte (w : Word) : Byte := w.extractLsb' 0 8

/-! ## Fields (R72) -/

/-- `class = w[15:12]`. -/
def fieldClass (w : Word) : Nat := (w.extractLsb' 12 4).toNat

/-- `x = w[11:8]`. -/
def fieldX (w : Word) : Nibble := (w.extractLsb' 8 4).toFin

/-- `y = w[7:4]`. -/
def fieldY (w : Word) : Nibble := (w.extractLsb' 4 4).toFin

/-- `n = w[3:0]`. -/
def fieldN (w : Word) : Nibble := (w.extractLsb' 0 4).toFin

/-- `kk = w[7:0]`. -/
def fieldKK (w : Word) : Byte := w.extractLsb' 0 8

/-- `nnn = w[11:0]`. -/
def fieldNNN (w : Word) : Addr12 := w.extractLsb' 0 12

/-! ## The decoder (R75) -/

/-- Class `0x0`: the two FIXED words, everything else is invalid. -/
def decodeClass0 (w : Word) : Option Instr :=
  if w = 0x00E0#16 then some .cls
  else if w = 0x00EE#16 then some .ret
  else none

/-- Class `0x8`, by `n`. -/
def decodeClass8 (w : Word) : Option Instr :=
  match (fieldN w).val with
  | 0x0 => some (.ldReg (fieldX w) (fieldY w))
  | 0x1 => some (.orReg (fieldX w) (fieldY w))
  | 0x2 => some (.andReg (fieldX w) (fieldY w))
  | 0x3 => some (.xorReg (fieldX w) (fieldY w))
  | 0x4 => some (.addReg (fieldX w) (fieldY w))
  | 0x5 => some (.sub (fieldX w) (fieldY w))
  | 0x6 => some (.shr (fieldX w) (fieldY w))
  | 0x7 => some (.subn (fieldX w) (fieldY w))
  | 0xE => some (.shl (fieldX w) (fieldY w))
  | _ => none

/-- Class `0xE`, by `kk`. -/
def decodeClassE (w : Word) : Option Instr :=
  match (fieldKK w).toNat with
  | 0x9E => some (.skp (fieldX w))
  | 0xA1 => some (.sknp (fieldX w))
  | _ => none

/-- Class `0xF`, by `kk`. -/
def decodeClassF (w : Word) : Option Instr :=
  match (fieldKK w).toNat with
  | 0x07 => some (.ldVxDt (fieldX w))
  | 0x0A => some (.ldVxK (fieldX w))
  | 0x15 => some (.ldDtVx (fieldX w))
  | 0x18 => some (.ldStVx (fieldX w))
  | 0x1E => some (.addI (fieldX w))
  | 0x29 => some (.ldF (fieldX w))
  | 0x33 => some (.ldB (fieldX w))
  | 0x55 => some (.stRegs (fieldX w))
  | 0x65 => some (.ldRegs (fieldX w))
  | _ => none

/-- `Decode(w)` of R75: `none` where no pattern matches (R80). -/
def decodeWord (w : Word) : Option Instr :=
  match fieldClass w with
  | 0x0 => decodeClass0 w
  | 0x1 => some (.jp (fieldNNN w))
  | 0x2 => some (.call (fieldNNN w))
  | 0x3 => some (.seImm (fieldX w) (fieldKK w))
  | 0x4 => some (.sneImm (fieldX w) (fieldKK w))
  | 0x5 => if (fieldN w).val = 0 then some (.seReg (fieldX w) (fieldY w)) else none
  | 0x6 => some (.ldImm (fieldX w) (fieldKK w))
  | 0x7 => some (.addImm (fieldX w) (fieldKK w))
  | 0x8 => decodeClass8 w
  | 0x9 => if (fieldN w).val = 0 then some (.sneReg (fieldX w) (fieldY w)) else none
  | 0xA => some (.ldI (fieldNNN w))
  | 0xB => some (.jpOff (fieldX w) (fieldNNN w))
  | 0xC => some (.rnd (fieldX w) (fieldKK w))
  | 0xD => some (.drw (fieldX w) (fieldY w) (fieldN w))
  | 0xE => decodeClassE w
  | 0xF => decodeClassF w
  | _ => none

/-- Why bytes are no instruction. -/
inductive DecodeError
  /-- Fewer than the two bytes of an instruction (R72). -/
  | truncated
  /-- The word matches no row of R78 (R80). -/
  | invalidWord (w : Word)
  deriving DecidableEq, Repr

/-- One instruction from the front of a byte sequence, and the bytes after it. -/
def decodeBytes : List Byte → Except DecodeError (Instr × List Byte)
  | hi :: lo :: rest =>
    match decodeWord (wordOfBytes hi lo) with
    | some i => .ok (i, rest)
    | none => .error (.invalidWord (wordOfBytes hi lo))
  | [_] | [] => .error .truncated

/-- The instruction word numbered as spec/opcode_table.json numbers its bits. Every row has
16 bits (R72), so `nbits` says nothing more. -/
def tableWord (_nbits w : Nat) : Word := BitVec.ofNat 16 w

/-- The instruction the decoder reads from the bytes of a table word, laid out big-endian (R51). -/
def decodeTableWord (nbits w : Nat) : Option Instr :=
  match decodeBytes [hiByte (tableWord nbits w), loByte (tableWord nbits w)] with
  | .ok (i, _) => some i
  | .error _ => none

/-! ## The encoder (R74) -/

/-- Formats `XYN` and `XY`: four nibbles. -/
def wordXYN (cls : Nat) (x y : Nibble) (n : Nat) : Word :=
  BitVec.ofNat 16 (cls * 4096 + x.val * 256 + y.val * 16 + n)

/-- Formats `XKK` and `X`: class, register, low byte. -/
def wordXKK (cls : Nat) (x : Nibble) (kk : Byte) : Word :=
  BitVec.ofNat 16 (cls * 4096 + x.val * 256 + kk.toNat)

/-- Format `NNN`. -/
def wordNNN (cls : Nat) (nnn : Addr12) : Word := BitVec.ofNat 16 (cls * 4096 + nnn.toNat)

/-- The word of an instruction (R74, R78). -/
def encode : Instr → Word
  | .cls => 0x00E0#16
  | .ret => 0x00EE#16
  | .jp nnn => wordNNN 0x1 nnn
  | .call nnn => wordNNN 0x2 nnn
  | .seImm x kk => wordXKK 0x3 x kk
  | .sneImm x kk => wordXKK 0x4 x kk
  | .seReg x y => wordXYN 0x5 x y 0x0
  | .ldImm x kk => wordXKK 0x6 x kk
  | .addImm x kk => wordXKK 0x7 x kk
  | .ldReg x y => wordXYN 0x8 x y 0x0
  | .orReg x y => wordXYN 0x8 x y 0x1
  | .andReg x y => wordXYN 0x8 x y 0x2
  | .xorReg x y => wordXYN 0x8 x y 0x3
  | .addReg x y => wordXYN 0x8 x y 0x4
  | .sub x y => wordXYN 0x8 x y 0x5
  | .shr x y => wordXYN 0x8 x y 0x6
  | .subn x y => wordXYN 0x8 x y 0x7
  | .shl x y => wordXYN 0x8 x y 0xE
  | .sneReg x y => wordXYN 0x9 x y 0x0
  | .ldI nnn => wordNNN 0xA nnn
  | .jpOff _ nnn => wordNNN 0xB nnn
  | .rnd x kk => wordXKK 0xC x kk
  | .drw x y n => wordXYN 0xD x y n.val
  | .skp x => wordXKK 0xE x 0x9E#8
  | .sknp x => wordXKK 0xE x 0xA1#8
  | .ldVxDt x => wordXKK 0xF x 0x07#8
  | .ldVxK x => wordXKK 0xF x 0x0A#8
  | .ldDtVx x => wordXKK 0xF x 0x15#8
  | .ldStVx x => wordXKK 0xF x 0x18#8
  | .addI x => wordXKK 0xF x 0x1E#8
  | .ldF x => wordXKK 0xF x 0x29#8
  | .ldB x => wordXKK 0xF x 0x33#8
  | .stRegs x => wordXKK 0xF x 0x55#8
  | .ldRegs x => wordXKK 0xF x 0x65#8

/-- The two bytes of an instruction in memory order (R51). -/
def encodeBytes (i : Instr) : List Byte := [hiByte (encode i), loByte (encode i)]

/-! ## The opcode list of R78 -/

/-- One row of R78: a word `w` is the instruction iff `w & mask = match`. -/
structure OpcodeRow where
  name  : String
  mask  : Word
  value : Word
  deriving DecidableEq, Repr

/-- Does a word match a row (R78)? -/
def OpcodeRow.hits (r : OpcodeRow) (w : Word) : Bool := w &&& r.mask == r.value

/-- The row of R78 an instruction belongs to. -/
def rowOf : Instr → OpcodeRow
  | .cls => ⟨"CLS", 0xFFFF#16, 0x00E0#16⟩
  | .ret => ⟨"RET", 0xFFFF#16, 0x00EE#16⟩
  | .jp _ => ⟨"JP", 0xF000#16, 0x1000#16⟩
  | .call _ => ⟨"CALL", 0xF000#16, 0x2000#16⟩
  | .seImm _ _ => ⟨"SE_IMM", 0xF000#16, 0x3000#16⟩
  | .sneImm _ _ => ⟨"SNE_IMM", 0xF000#16, 0x4000#16⟩
  | .seReg _ _ => ⟨"SE_REG", 0xF00F#16, 0x5000#16⟩
  | .ldImm _ _ => ⟨"LD_IMM", 0xF000#16, 0x6000#16⟩
  | .addImm _ _ => ⟨"ADD_IMM", 0xF000#16, 0x7000#16⟩
  | .ldReg _ _ => ⟨"LD_REG", 0xF00F#16, 0x8000#16⟩
  | .orReg _ _ => ⟨"OR", 0xF00F#16, 0x8001#16⟩
  | .andReg _ _ => ⟨"AND", 0xF00F#16, 0x8002#16⟩
  | .xorReg _ _ => ⟨"XOR", 0xF00F#16, 0x8003#16⟩
  | .addReg _ _ => ⟨"ADD_REG", 0xF00F#16, 0x8004#16⟩
  | .sub _ _ => ⟨"SUB", 0xF00F#16, 0x8005#16⟩
  | .shr _ _ => ⟨"SHR", 0xF00F#16, 0x8006#16⟩
  | .subn _ _ => ⟨"SUBN", 0xF00F#16, 0x8007#16⟩
  | .shl _ _ => ⟨"SHL", 0xF00F#16, 0x800E#16⟩
  | .sneReg _ _ => ⟨"SNE_REG", 0xF00F#16, 0x9000#16⟩
  | .ldI _ => ⟨"LD_I", 0xF000#16, 0xA000#16⟩
  | .jpOff _ _ => ⟨"JP_OFF", 0xF000#16, 0xB000#16⟩
  | .rnd _ _ => ⟨"RND", 0xF000#16, 0xC000#16⟩
  | .drw _ _ _ => ⟨"DRW", 0xF000#16, 0xD000#16⟩
  | .skp _ => ⟨"SKP", 0xF0FF#16, 0xE09E#16⟩
  | .sknp _ => ⟨"SKNP", 0xF0FF#16, 0xE0A1#16⟩
  | .ldVxDt _ => ⟨"LD_VX_DT", 0xF0FF#16, 0xF007#16⟩
  | .ldVxK _ => ⟨"LD_VX_K", 0xF0FF#16, 0xF00A#16⟩
  | .ldDtVx _ => ⟨"LD_DT_VX", 0xF0FF#16, 0xF015#16⟩
  | .ldStVx _ => ⟨"LD_ST_VX", 0xF0FF#16, 0xF018#16⟩
  | .addI _ => ⟨"ADD_I", 0xF0FF#16, 0xF01E#16⟩
  | .ldF _ => ⟨"LD_F", 0xF0FF#16, 0xF029#16⟩
  | .ldB _ => ⟨"LD_B", 0xF0FF#16, 0xF033#16⟩
  | .stRegs _ => ⟨"ST_REGS", 0xF0FF#16, 0xF055#16⟩
  | .ldRegs _ => ⟨"LD_REGS", 0xF0FF#16, 0xF065#16⟩

/-- The 34 rows of R78, in the table's order. -/
def opcodeRows : List OpcodeRow :=
  [.cls, .ret, .jp 0, .call 0, .seImm 0 0, .sneImm 0 0, .seReg 0 0, .ldImm 0 0, .addImm 0 0,
    .ldReg 0 0, .orReg 0 0, .andReg 0 0, .xorReg 0 0, .addReg 0 0, .sub 0 0, .shr 0 0, .subn 0 0,
    .shl 0 0, .sneReg 0 0, .ldI 0, .jpOff 0 0, .rnd 0 0, .drw 0 0 0, .skp 0, .sknp 0, .ldVxDt 0,
    .ldVxK 0, .ldDtVx 0, .ldStVx 0, .addI 0, .ldF 0, .ldB 0, .stRegs 0, .ldRegs 0].map
    fun i : Instr => rowOf i

end Sys2Proof
end

