-- ==== Sys2Proof/Config.lean ====
section
/-! DEFINITION. The implementation parameters of R5 (this hardware's values) and the one free
value, the byte of the collaborator's random source (R171). -/

namespace Sys2Proof.Config

/-- `MEM_SIZE`: addresses `0x000` to `0xFFF` (R5, R50). -/
@[simp] abbrev memSize : Nat := 4096

/-! The widths: Word.lean's types have them (Laws/Config.lean), and no definition varies them. -/

/-- `REG_W`: a general register, and a cell of Memory, is a `Byte` (R5, R20, R28). -/
@[simp] abbrev regW : Nat := 8

/-- `I_W`: `I` is a `Word` (R5, R22). -/
@[simp] abbrev iW : Nat := 16

/-- `PC_W`: `PC` is a `Word` (R5, R23). -/
@[simp] abbrev pcW : Nat := 16

/-- `SP_W`: `SP` is a `Byte` (R5, R24). -/
@[simp] abbrev spW : Nat := 8

/-- `STACK_ENTRY_W`: a stack entry is a `Word` (R5, R25; decision D26). -/
@[simp] abbrev stackEntryW : Nat := 16

/-- `TIMER_W`: `DT` and `ST` are each a `Byte` (R5, R26, R27). -/
@[simp] abbrev timerW : Nat := 8

/-! The counts. -/

/-- `NREG`: `V0` to `VF` (R5, R20). -/
@[simp] abbrev nReg : Nat := 16

/-- `STACK_DEPTH` (R5, R25). -/
@[simp] abbrev stackDepth : Nat := 16

/-- `NKEYS` (R5, R30). -/
@[simp] abbrev nKeys : Nat := 16

/-- `TICK_HZ`, the nominal rate at which the host delivers `TICK`. No rule depends on the number
(R5, R190, R222), and no definition does (assumption 18). -/
@[simp] abbrev tickHz : Nat := 60

/-- `DISP_W` (R5, R29). -/
@[simp] abbrev dispW : Nat := 64

/-- `DISP_H` (R5, R29). -/
@[simp] abbrev dispH : Nat := 32

/-- `INSTR_BYTES` (R5, R72). -/
@[simp] abbrev instrBytes : Nat := 2

/-- `FONT_BASE` (R5, R58; decision D11, assumption 5). -/
@[simp] abbrev fontBase : Nat := 0x050

/-- `GLYPH_BYTES` (R5, R58). -/
@[simp] abbrev glyphBytes : Nat := 5

/-- `LOAD_ADDR`, the conventional argument of `INIT`. DESIGN CHOICE, assumption 3: the load address
of `State.reset` (R5 "conventionally `0x200`"). -/
@[simp] abbrev loadAddr : Word := 0x200#16

/-- `JUMP_OFFSET_REG`: which register `Bnnn` adds (R5, R107, C1). -/
inductive JumpOffsetReg
  /-- `V[x]`, `x` the top nibble of `nnn`: this hardware. -/
  | vx
  /-- `V[0]`. -/
  | v0
  deriving DecidableEq, Repr

/-- `HIGH_DIGIT_POLICY`: what `Ex9E`, `ExA1`, `Fx29` do when `V[x] > 0x0F` (R5, R132, R160, D12). -/
inductive HighDigitPolicy
  /-- No defined behaviour: this hardware. -/
  | refuse
  /-- The low nibble of `V[x]` is used. -/
  | mask
  deriving DecidableEq, Repr

/-- `FONT_WRITE_POLICY`: what a store into the font region does (R5, R53, C7, D13). -/
inductive FontWritePolicy
  /-- No defined behaviour, nothing written: this hardware. -/
  | refuse
  /-- The font is ordinary memory. -/
  | allow
  deriving DecidableEq, Repr

/-- The open parameters of R5 that change what an instruction does. -/
structure Params where
  jumpOffset : JumpOffsetReg
  highDigit  : HighDigitPolicy
  fontWrite  : FontWritePolicy
  deriving DecidableEq, Repr

/-- This hardware's values (R5; assumption 7). -/
def hardware : Params :=
  { jumpOffset := .vx, highDigit := .refuse, fontWrite := .refuse }

/-- FREE VALUE (R171, U4; assumption 2): the byte the random source gives to the `j`-th executed
`Cxkk` where the host has not supplied one in `State.rndFeed`. Nothing constrains it. -/
opaque randomByte : Nat → Byte

end Sys2Proof.Config
end

