-- ==== Sys2Proof/Machine/State.lean ====
section
/-! DEFINITION. The state record of 10_state.md (R20 to R36) as plain data, the model's own fields
for the host's inputs, the reasons a step can stop, and the state after reset. -/

namespace Sys2Proof.Machine

/-- Memory (R28, R50): the cells whose byte differs from the font-and-zero contents of R57, by
strictly rising address (`Memory.wf`, Machine/Ops.lean; assumption 5). -/
abbrev Memory := List Host.Cell

/-- `fb[row][column]`, 32 rows of 64 one-bit pixels, row 0 at the top, column 0 at the left (R29). -/
abbrev Display := Vector (Vector Bool Config.dispW) Config.dispH

/-- The 16 key flags (R30). -/
abbrev Keys := Vector Bool Config.nKeys

/-- The four fatal errors of the core with their payloads (R32, R180). They are errors of the
hardware, held in `status`, not reasons for the model to stop (assumption 6). -/
inductive HaltError
  /-- A fetched word that matches no row of R78, and the `PC` it was fetched from (R183). -/
  | invalidOpcode (word address : Word)
  /-- `2nnn` with `SP = 16` (R184). -/
  | stackOverflow
  /-- `00EE` with `SP = 0` (R185). -/
  | stackUnderflow
  /-- An access above `0xFFF`, with its lowest out-of-range address (R187). -/
  | memoryOutOfBounds (address : Word)
  deriving DecidableEq, Repr

/-- `status` (R32). -/
inductive Status
  | running
  | halted (e : HaltError)
  deriving DecidableEq, Repr

/-- The four events the host delivers (00_scope.md section 5, R196). `STEP`'s random byte is in
`State.rndFeed` (R171, the sequence presentation; assumption 2). -/
inductive HostEvent
  /-- `INIT(rom, load_addr)` (R210). -/
  | init (rom : List Byte) (loadAddr : Word)
  /-- `STEP` (R70). -/
  | step
  /-- `TICK` (R190). -/
  | tick
  /-- `KEYS(k)` (R164). -/
  | keys (k : Keys)
  deriving DecidableEq, Repr

/-- The state record of 10_state.md section 1, and the model's own fields. -/
structure State where
  /-- `V[0]` .. `V[15]` (R20); `V[15]` is `VF` (R21). -/
  v : Vector Byte Config.nReg
  /-- The index register `I` (R22). -/
  i : Word
  /-- The program counter (R23). -/
  pc : Word
  /-- The number of live stack entries (R24). -/
  sp : Byte
  /-- The call stack (R25). -/
  stack : Vector Word Config.stackDepth
  /-- The delay timer (R26). -/
  dt : Byte
  /-- The sound timer (R27). -/
  st : Byte
  /-- Memory (R28). -/
  mem : Memory
  /-- The display buffer (R29). -/
  fb : Display
  /-- The key state (R30). -/
  keys : Keys
  /-- The awaiting-key state (R31): `some x` is `Some(x)`. -/
  wait : Option Nibble
  /-- Running, or the fatal error (R32). -/
  status : Status
  /-- MODEL'S OWN: the open parameters of R5, which no event changes (assumption 7). -/
  params : Config.Params
  /-- MODEL'S OWN: the events the host delivers next, first one first; when the list is empty the
  next event is a `STEP` (R196; assumption 1). -/
  hostEvents : List HostEvent
  /-- MODEL'S OWN: the random bytes the host has supplied for the next `Cxkk`s (R171; assumption 2). -/
  rndFeed : List Byte
  /-- MODEL'S OWN: how many `Cxkk` have executed, the index of the next free random byte
  (R171; assumption 2). -/
  rndDraws : Nat
  deriving DecidableEq, Repr

/-- Why the model stops on a state that is none of the spec's. -/
inductive Fault
  /-- Raised by `CALL` and `RET` when `SP > 16`, which R24 and R34 exclude: there is no stack entry
  to name. SAFE: no run reaches such a state (`State.Inv`; assumption 11). -/
  | stackPointerIllegal (sp : Byte)
  deriving DecidableEq, Repr

/-- Where the spec says `refuse` (R8): it gives the situation no meaning and a model has no step. -/
inductive Refusal
  /-- Raised by `exec`'s arm of an instruction that has no meaning yet; no arm is one now. SAFE. -/
  | notModelled (mnemonic : String)
  /-- Raised by `Ex9E`, `ExA1`, `Fx29` when `V[x] > 0x0F` under `HIGH_DIGIT_POLICY = refuse`
  (R132, R160, R161, D12; assumption 8). SAFE. -/
  | highDigit (value : Byte)
  /-- Raised by `Fx33`, `Fx55` when a target cell lies in the font region under
  `FONT_WRITE_POLICY = refuse` (R53, D13, C7; assumption 9). SAFE. -/
  | fontStore (address : Word)
  /-- Raised by an `INIT` that violates R211 (D24; assumption 10). SAFE. -/
  | initPrecondition
  deriving DecidableEq, Repr

/-- The outcome of an instruction or of an event. -/
abbrev Result := Host.Outcome State Fault Refusal

/-- A display with every pixel clear (R29, R210). -/
abbrev blankDisplay : Display := Vector.replicate Config.dispH (Vector.replicate Config.dispW false)

/-- The state after `INIT([], 0x200)` (R210, R211 "`len = 0` is allowed", R212): memory holds only
the font. DESIGN CHOICE: the empty ROM and the conventional load address (assumption 3); the
zeros are the spec's decision D16 (assumption 4). -/
def State.reset : State :=
  { v := Vector.replicate Config.nReg 0#8
    i := 0#16
    pc := Config.loadAddr
    sp := 0#8
    stack := Vector.replicate Config.stackDepth 0#16
    dt := 0#8
    st := 0#8
    mem := []
    fb := blankDisplay
    keys := Vector.replicate Config.nKeys false
    wait := none
    status := .running
    params := Config.hardware
    hostEvents := []
    rndFeed := []
    rndDraws := 0 }

end Sys2Proof.Machine
end

