-- ==== Sys2Proof/Machine/Ops.lean ====
section
/-! DEFINITION. The shared operations: memory and its canonical form (R50 to R58), register and
field updates, raising a fatal error (R181), the `PC` advance (R71), the range check (R54), the
store (R53) and load of consecutive cells, the call stack (R101, R102) and fetch (R51). -/

namespace Sys2Proof.Machine

/-! ## The font and the reset contents of memory (R57, R58; assumption 5) -/

/-- The 80 glyph bytes of R58, digit by digit, top row first. -/
def fontBytes : List Byte :=
  [0xF0#8, 0x90#8, 0x90#8, 0x90#8, 0xF0#8] ++ [0x20#8, 0x60#8, 0x20#8, 0x20#8, 0x70#8] ++
  [0xF0#8, 0x10#8, 0xF0#8, 0x80#8, 0xF0#8] ++ [0xF0#8, 0x10#8, 0xF0#8, 0x10#8, 0xF0#8] ++
  [0x90#8, 0x90#8, 0xF0#8, 0x10#8, 0x10#8] ++ [0xF0#8, 0x80#8, 0xF0#8, 0x10#8, 0xF0#8] ++
  [0xF0#8, 0x80#8, 0xF0#8, 0x90#8, 0xF0#8] ++ [0xF0#8, 0x10#8, 0x20#8, 0x40#8, 0x40#8] ++
  [0xF0#8, 0x90#8, 0xF0#8, 0x90#8, 0xF0#8] ++ [0xF0#8, 0x90#8, 0xF0#8, 0x10#8, 0xF0#8] ++
  [0xF0#8, 0x90#8, 0xF0#8, 0x90#8, 0x90#8] ++ [0xE0#8, 0x90#8, 0xE0#8, 0x90#8, 0xE0#8] ++
  [0xF0#8, 0x80#8, 0x80#8, 0x80#8, 0xF0#8] ++ [0xE0#8, 0x90#8, 0x90#8, 0x90#8, 0xE0#8] ++
  [0xF0#8, 0x80#8, 0xF0#8, 0x80#8, 0xF0#8] ++ [0xF0#8, 0x80#8, 0xF0#8, 0x80#8, 0x80#8]

/-- Is an address in the font region `FONT_BASE .. FONT_BASE+79` (R53, R57)? -/
def inFont (a : Nat) : Bool := decide (Config.fontBase ≤ a) && decide (a < Config.fontBase + 16 * Config.glyphBytes)

/-- What an unlisted address reads as: the glyph byte in the font region, `0x00` elsewhere, the
contents R210 and R57 give memory before the ROM is copied. -/
def resetByte (a : Nat) : Byte := if inFont a then fontBytes.getD (a - Config.fontBase) 0#8 else 0#8

/-! ## Memory -/

/-- The canonical form: strictly rising addresses below `MEM_SIZE`, no entry equal to what an
unlisted address reads as. -/
abbrev Memory.wf (m : Memory) : Prop :=
  m.Pairwise (fun p q => p.1 < q.1) ∧ ∀ c ∈ m, c.1 < Config.memSize ∧ c.2 ≠ resetByte c.1

/-- `mem[addr]` (R52, for an address the range check has passed). -/
def Memory.read : Memory → Nat → Byte
  | [], a => resetByte a
  | c :: m, a => if c.1 = a then c.2 else Memory.read m a

/-- `mem[addr] <- v` (R53), in canonical form. -/
def Memory.write : Memory → Nat → Byte → Memory
  | [], a, b => if b = resetByte a then [] else [(a, b)]
  | c :: m, a, b =>
    if c.1 < a then c :: Memory.write m a b
    else
      let rest := if c.1 = a then m else c :: m
      if b = resetByte a then rest else (a, b) :: rest

/-- The bytes `bs` at ascending addresses from `a` (R56). -/
def Memory.writeBytes (m : Memory) (a : Nat) : List Byte → Memory
  | [] => m
  | b :: bs => Memory.writeBytes (Memory.write m a b) (a + 1) bs

/-- `n` bytes at ascending addresses from `a` (R56). -/
def Memory.readBytes (m : Memory) (a n : Nat) : List Byte :=
  (List.range n).map fun k => Memory.read m (a + k)

/-! ## Reading and updating one piece of state -/

/-- `V[r]` (R8, R20): no register is hard-wired. -/
def State.reg (s : State) (r : Nibble) : Byte := s.v[r]

/-- The byte of memory at an address. -/
def State.byte (s : State) (a : Nat) : Byte := Memory.read s.mem a

/-- `fb[r][c]` (R29). -/
def State.pixel (s : State) (r : Fin Config.dispH) (c : Fin Config.dispW) : Bool := s.fb[r][c]

/-- `V[r] <- b` (R8). -/
def State.setV (s : State) (r : Nibble) (b : Byte) : State := { s with v := s.v.set r b }

/-- All 16 registers at once (`Fx65`). -/
def State.setRegs (s : State) (v : Vector Byte Config.nReg) : State := { s with v := v }

def State.setI (s : State) (w : Word) : State := { s with i := w }

def State.setPc (s : State) (w : Word) : State := { s with pc := w }

/-- The stack pointer and the stack together (R101, R102). -/
def State.setStack (s : State) (sp : Byte) (stack : Vector Word Config.stackDepth) : State :=
  { s with sp := sp, stack := stack }

def State.setDt (s : State) (b : Byte) : State := { s with dt := b }

def State.setSt (s : State) (b : Byte) : State := { s with st := b }

def State.setMem (s : State) (m : Memory) : State := { s with mem := m }

def State.setFb (s : State) (d : Display) : State := { s with fb := d }

def State.setKeys (s : State) (k : Keys) : State := { s with keys := k }

def State.setWait (s : State) (w : Option Nibble) : State := { s with wait := w }

def State.setStatus (s : State) (t : Status) : State := { s with status := t }

def State.setHostEvents (s : State) (es : List HostEvent) : State := { s with hostEvents := es }

/-- One random byte consumed: the feed loses its head, the draw is counted (R171). -/
def State.consumeRandom (s : State) : State :=
  { s with rndFeed := s.rndFeed.tail, rndDraws := s.rndDraws + 1 }

/-! ## The `PC` advance, errors and range checks -/

/-- `PC <- PC + 2` (R71), modulo 65536 (R23). -/
def State.advance (s : State) : State := s.setPc (s.pc + 2#16)

/-- The end of a skip instruction (R71): `PC + 4` when the condition holds, without looking at the
skipped word (D27), else `PC + 2`. -/
def skipIf (c : Bool) (s : State) : Result := .next (s.setPc (s.pc + if c then 4#16 else 2#16))

/-- `raise E(info)` (R181): `status <- Halted(E(info))` and no other change; the machine has no
vector and no handler. A next state, in which `STEP` does nothing (R182; assumption 6). -/
def raise (e : HaltError) (s : State) : Result := .next (s.setStatus (.halted e))

/-- `CheckRange(addr, n)` (R54): the lowest out-of-range address of the access, if there is one:
`addr` itself, else `0x1000` (D19). -/
def checkRange (addr : Word) (n : Nat) : Option Word :=
  if n = 0 ∨ addr.toNat + n ≤ Config.memSize then none
  else if Config.memSize ≤ addr.toNat then some addr
  else some (BitVec.ofNat 16 Config.memSize)

/-- Is one of the `n` cells from `a` in the font region (R53)? -/
def touchesFont (a n : Nat) : Bool := (List.range n).any fun k => inFont (a + k)

/-! ## The data accesses through `I` (R136) -/

/-- The store of `Fx33` and `Fx55` (R53, R54, R133, R134): the range check, then the font test over
all target cells, then the bytes from `mem[I]` upward; `I` is not changed (D10). -/
def storeAtI (bs : List Byte) (s : State) : Result :=
  match checkRange s.i bs.length with
  | some a => raise (.memoryOutOfBounds a) s
  | none =>
    if s.params.fontWrite = .refuse ∧ touchesFont s.i.toNat bs.length then
      .refused (.fontStore s.i)
    else .next (s.setMem (Memory.writeBytes s.mem s.i.toNat bs)).advance

/-- The registers after `V[k] <- mem[I + k]` for every `k < n` (R135). -/
def loadedRegs (n : Nat) (s : State) : Vector Byte Config.nReg :=
  Vector.ofFn fun r => if r.val < n then s.byte (s.i.toNat + r.val) else s.reg r

/-- The load of `Fx65` (R54, R135): the range check, then `V[0] .. V[n-1]` from `mem[I]` upward. -/
def loadAtI (n : Nat) (s : State) : Result :=
  match checkRange s.i n with
  | some a => raise (.memoryOutOfBounds a) s
  | none => .next (s.setRegs (loadedRegs n s)).advance

/-! ## The call stack -/

/-- `2nnn` (R101, R184): push `PC + 2`, jump. `SP = 16` raises; `SP > 16` is no state of the spec's
(assumption 11). -/
def callTo (target : Word) (s : State) : Result :=
  if h : s.sp.toNat < Config.stackDepth then
    .next ((s.setStack (s.sp + 1#8) (s.stack.set s.sp.toNat (s.pc + 2#16))).setPc target)
  else if s.sp.toNat = Config.stackDepth then raise .stackOverflow s
  else .fault (.stackPointerIllegal s.sp)

/-- `00EE` (R102, R185): pop into `PC`, unchecked (D26); the popped entry stays in the array (R25,
U21; assumption 11). -/
def returnFrom (s : State) : Result :=
  if s.sp = 0#8 then raise .stackUnderflow s
  else if h : s.sp.toNat - 1 < Config.stackDepth then
    .next ((s.setStack (s.sp - 1#8) s.stack).setPc s.stack[s.sp.toNat - 1])
  else .fault (.stackPointerIllegal s.sp)

/-! ## Fetch -/

/-- `MemRead(PC, 2)` (R51, R70), for a `PC` the range check has passed. -/
def State.fetchWord (s : State) : Word :=
  wordOfBytes (s.byte s.pc.toNat) (s.byte (s.pc.toNat + 1))

end Sys2Proof.Machine
end

