-- ==== Sys2Proof/Machine/Operands.lean ====
section
/-! DEFINITION. The operand forms beyond a plain register or immediate (R73, R107, R132, R160,
R133, R134, R142, R171). -/

namespace Sys2Proof.Machine

/-- The key or glyph number in a register (R132, R160, R161): the value itself when it is a
hexadecimal digit; above `0x0F` nothing under `HIGH_DIGIT_POLICY = refuse`, the low nibble under
`mask` (D12; assumption 8). -/
def digitOf (p : Config.HighDigitPolicy) (b : Byte) : Option Nibble :=
  if h : b.toNat < 16 then some ⟨b.toNat, h⟩
  else
    match p with
    | .refuse => none
    | .mask => some ⟨b.toNat % 16, Nat.mod_lt _ (by decide)⟩

/-- The register `Bnnn` adds (R107, C1; assumption 12). -/
def offsetReg (p : Config.JumpOffsetReg) (x : Nibble) : Nibble :=
  match p with
  | .vx => x
  | .v0 => 0

/-- The address of the glyph of a digit: `FONT_BASE + 5 * d` (R58, R132). -/
def glyphAddress (d : Nibble) : Word :=
  BitVec.ofNat 16 (Config.fontBase + Config.glyphBytes * d.val)

/-- The three decimal digits of a byte, hundreds first (R133, D14; assumption 15). -/
def bcdDigits (b : Byte) : List Byte :=
  [BitVec.ofNat 8 (b.toNat / 100), BitVec.ofNat 8 (b.toNat / 10 % 10), BitVec.ofNat 8 (b.toNat % 10)]

/-- `V[0] .. V[x]`, the bytes `Fx55` stores (R134). -/
def regsThrough (x : Nibble) (s : State) : List Byte :=
  List.ofFn fun k : Fin (x.val + 1) => s.reg ⟨k.val, by omega⟩

/-- The `n` rows of the sprite at `I` (R142). -/
def spriteRows (n : Nibble) (s : State) : List Byte := Memory.readBytes s.mem s.i.toNat n.val

/-- The byte of the random source the next `Cxkk` uses (R170, R171): the next one the host has
supplied, else a FREE VALUE (assumption 2). -/
def State.nextRandom (s : State) : Byte :=
  match s.rndFeed with
  | b :: _ => b
  | [] => Config.randomByte s.rndDraws

end Sys2Proof.Machine
end

