-- ==== Sys2Proof/Machine/ControlFlow.lean ====
section
/-! DEFINITION. Control flow (40_control_flow.md, R100 to R107). -/

namespace Sys2Proof.Machine

/-- `1nnn` (R100): the target is not checked here. -/
def execJp (nnn : Addr12) (s : State) : Result := .next (s.setPc (zext16 nnn))

/-- `2nnn` (R101). -/
def execCall (nnn : Addr12) (s : State) : Result := callTo (zext16 nnn) s

/-- `00EE` (R102). -/
def execRet (s : State) : Result := returnFrom s

/-- `3xkk` (R103). -/
def execSeImm (x : Nibble) (kk : Byte) (s : State) : Result := skipIf (s.reg x == kk) s

/-- `4xkk` (R104). -/
def execSneImm (x : Nibble) (kk : Byte) (s : State) : Result := skipIf (s.reg x != kk) s

/-- `5xy0` (R105). -/
def execSeReg (x y : Nibble) (s : State) : Result := skipIf (s.reg x == s.reg y) s

/-- `9xy0` (R106). -/
def execSneReg (x y : Nibble) (s : State) : Result := skipIf (s.reg x != s.reg y) s

/-- `Bnnn` (R107, C1; assumption 12): the 16-bit sum, not reduced modulo 4096. -/
def execJpOff (x : Nibble) (nnn : Addr12) (s : State) : Result :=
  .next (s.setPc (zext16 nnn + (s.reg (offsetReg s.params.jumpOffset x)).setWidth 16))

end Sys2Proof.Machine
end

