-- ==== Sys2Proof/Machine/Flags.lean ====
section
/-! DEFINITION. The flag computations of `VF` (R21, R116 to R120, R131, R144) and the order of the
result and flag writes (R122). -/

namespace Sys2Proof.Machine

/-- The flag register's number: `VF` is `V[15]` (R21). -/
abbrev vf : Nibble := 15

/-- A flag as the register holds it: 1 or 0 (R21). -/
def flagByte (f : Bool) : Byte := if f then 1#8 else 0#8

/-- Carry of `8xy4` (R116): the 9-bit sum exceeds 255. -/
def carryFlag (a b : Byte) : Bool := decide (255 < a.toNat + b.toNat)

/-- Not-borrow of `8xy5` and `8xy7` (R117, R119): minuend `≥` subtrahend. -/
def notBorrowFlag (minuend subtrahend : Byte) : Bool := decide (subtrahend.toNat ≤ minuend.toNat)

/-- The bit `8xy6` shifts out: bit 0 (R118). -/
def shrFlag (a : Byte) : Bool := a.getLsbD 0

/-- The bit `8xyE` shifts out: bit 7 (R120). -/
def shlFlag (a : Byte) : Bool := a.getLsbD 7

/-- Overflow of `Fx1E` past the addressable range (R131, D9; assumption 14): the 17-bit sum exceeds
`0x0FFF`. -/
def indexFlag (i : Word) (a : Byte) : Bool := decide (0x0FFF < i.toNat + a.toNat)

/-- The end of an instruction with a result and a flag: `V[x]` first, then `VF`, so with `x = F` the
flag remains (R122, D7; assumption 13); then the `PC` advance. -/
def resultThenFlag (x : Nibble) (r : Byte) (f : Bool) (s : State) : Result :=
  .next ((s.setV x r).setV vf (flagByte f)).advance

end Sys2Proof.Machine
end

