-- ==== Sys2Proof/Machine/Display.lean ====
section
/-! DEFINITION. Display instructions and the XOR-blit engine (43_display.md, R140 to R145). -/

namespace Sys2Proof.Machine

/-- `fb[py][px] <- fb[py][px] ^ 1` (R141). -/
def togglePixel (d : Display) (py : Fin Config.dispH) (px : Fin Config.dispW) : Display :=
  d.set py (d[py].set px (!d[py][px]))

/-- The row a sprite row lands on: vertical wraparound (R141, R143, D15). -/
def wrapRow (y0 r : Nat) : Fin Config.dispH := ⟨(y0 + r) % Config.dispH, Nat.mod_lt _ (by decide)⟩

/-- The column a sprite column lands on: horizontal wraparound (R141, R143, D15). -/
def wrapCol (x0 c : Nat) : Fin Config.dispW := ⟨(x0 + c) % Config.dispW, Nat.mod_lt _ (by decide)⟩

/-- The inner loop of R141 over the columns `cs` of one sprite row: bit 7 is the leftmost pixel
(R142); `hit` collects the collisions (R144). -/
def blitRow (x0 : Nat) (py : Fin Config.dispH) (b : Byte) : List Nat → Display × Bool → Display × Bool
  | [], acc => acc
  | c :: cs, (d, hit) =>
    blitRow x0 py b cs
      (if b.getLsbD (7 - c) then
        (togglePixel d py (wrapCol x0 c), hit || d[py][wrapCol x0 c])
      else (d, hit))

/-- The outer loop of R141, from sprite row `r` on. -/
def blitRows (x0 y0 : Nat) : Nat → List Byte → Display × Bool → Display × Bool
  | _, [], acc => acc
  | r, b :: bs, acc =>
    blitRows x0 y0 (r + 1) bs (blitRow x0 (wrapRow y0 r) b (List.range 8) acc)

/-- The display and the collision flag after drawing the sprite `rows` with its origin at the
register values `vx`, `vy` (R141, R143: the origin wraps). -/
def blit (vx vy : Byte) (rows : List Byte) (d : Display) : Display × Bool :=
  blitRows (vx.toNat % Config.dispW) (vy.toNat % Config.dispH) 0 rows (d, false)

/-- `00E0` (R140). -/
def execCls (s : State) : Result := .next (s.setFb blankDisplay).advance

/-- `Dxyn` (R141): coordinates read before `VF` is written, nothing drawn if the range check raises,
`VF` the collision flag on every execution, `I` unchanged. -/
def execDrw (x y n : Nibble) (s : State) : Result :=
  match checkRange s.i n.val with
  | some a => raise (.memoryOutOfBounds a) s
  | none =>
    let drawn := blit (s.reg x) (s.reg y) (spriteRows n s) s.fb
    .next ((s.setFb drawn.1).setV vf (flagByte drawn.2)).advance

end Sys2Proof.Machine
end

