-- ==== Sys2Proof/Machine/IndexMemory.lean ====
section
/-! DEFINITION. Index-register and memory instructions (42_index_memory.md, R130 to R136). -/

namespace Sys2Proof.Machine

/-- `Annn` (R130). -/
def execLdI (nnn : Addr12) (s : State) : Result := .next (s.setI (zext16 nnn)).advance

/-- `Fx1E` (R131, D9; assumption 14): all 16 bits of the sum, then the flag. -/
def execAddI (x : Nibble) (s : State) : Result :=
  .next ((s.setI (s.i + (s.reg x).setWidth 16)).setV vf (flagByte (indexFlag s.i (s.reg x)))).advance

/-- `Fx29` (R132, D11, D12; assumptions 5 and 8). -/
def execLdF (x : Nibble) (s : State) : Result :=
  match digitOf s.params.highDigit (s.reg x) with
  | some d => .next (s.setI (glyphAddress d)).advance
  | none => .refused (.highDigit (s.reg x))

/-- `Fx33` (R133). -/
def execLdB (x : Nibble) (s : State) : Result := storeAtI (bcdDigits (s.reg x)) s

/-- `Fx55` (R134). -/
def execStRegs (x : Nibble) (s : State) : Result := storeAtI (regsThrough x s) s

/-- `Fx65` (R135). -/
def execLdRegs (x : Nibble) (s : State) : Result := loadAtI (x.val + 1) s

end Sys2Proof.Machine
end

