-- ==== Sys2Proof/Machine/Input.lean ====
section
/-! DEFINITION. Input instructions (45_input.md, R160 to R162). -/

namespace Sys2Proof.Machine

/-- `Ex9E` (R160): skip if the key numbered by the value of `V[x]` is pressed. -/
def execSkp (x : Nibble) (s : State) : Result :=
  match digitOf s.params.highDigit (s.reg x) with
  | some k => skipIf s.keys[k] s
  | none => .refused (.highDigit (s.reg x))

/-- `ExA1` (R161): skip if it is not pressed. -/
def execSknp (x : Nibble) (s : State) : Result :=
  match digitOf s.params.highDigit (s.reg x) with
  | some k => skipIf (!s.keys[k]) s
  | none => .refused (.highDigit (s.reg x))

/-- `Fx0A` (R162, D22; assumption 16): enter the key wait and advance `PC`; `V[x]` is written later,
by the `KEYS` event that ends the wait. -/
def execLdVxK (x : Nibble) (s : State) : Result := .next (s.setWait (some x)).advance

end Sys2Proof.Machine
end

