-- ==== Sys2Proof/Machine/Random.lean ====
section
/-! DEFINITION. The random-number instruction (46_random.md, R170, R171). -/

namespace Sys2Proof.Machine

/-- `Cxkk` (R170): one byte of the random source, masked; the byte is consumed (R171; assumption 2). -/
def execRnd (x : Nibble) (kk : Byte) (s : State) : Result :=
  .next ((s.setV x (s.nextRandom &&& kk)).consumeRandom).advance

end Sys2Proof.Machine
end

