-- ==== Sys2Proof/Machine/RegisterOps.lean ====
section
/-! DEFINITION. Register and arithmetic instructions (41_register_ops.md, R110 to R122). Operands are
read before anything is written. -/

namespace Sys2Proof.Machine

/-- The end of an instruction whose only result is `V[x]`; `VF` is no flag here (R122, D8). -/
def resultOnly (x : Nibble) (r : Byte) (s : State) : Result := .next (s.setV x r).advance

/-- `6xkk` (R110). -/
def execLdImm (x : Nibble) (kk : Byte) (s : State) : Result := resultOnly x kk s

/-- `7xkk` (R111, D4; assumption 13): no flag. -/
def execAddImm (x : Nibble) (kk : Byte) (s : State) : Result := resultOnly x (s.reg x + kk) s

/-- `8xy0` (R112). -/
def execLdReg (x y : Nibble) (s : State) : Result := resultOnly x (s.reg y) s

/-- `8xy1` (R113). -/
def execOr (x y : Nibble) (s : State) : Result := resultOnly x (s.reg x ||| s.reg y) s

/-- `8xy2` (R114). -/
def execAnd (x y : Nibble) (s : State) : Result := resultOnly x (s.reg x &&& s.reg y) s

/-- `8xy3` (R115). -/
def execXor (x y : Nibble) (s : State) : Result := resultOnly x (s.reg x ^^^ s.reg y) s

/-- `8xy4` (R116). -/
def execAddReg (x y : Nibble) (s : State) : Result :=
  resultThenFlag x (s.reg x + s.reg y) (carryFlag (s.reg x) (s.reg y)) s

/-- `8xy5` (R117): `V[x] - V[y]`. -/
def execSub (x y : Nibble) (s : State) : Result :=
  resultThenFlag x (s.reg x - s.reg y) (notBorrowFlag (s.reg x) (s.reg y)) s

/-- `8xy6` (R118): the operand is `V[x]` itself; `y` is ignored (R79). -/
def execShr (x _y : Nibble) (s : State) : Result :=
  resultThenFlag x (s.reg x >>> 1) (shrFlag (s.reg x)) s

/-- `8xy7` (R119): `V[y] - V[x]`. -/
def execSubn (x y : Nibble) (s : State) : Result :=
  resultThenFlag x (s.reg y - s.reg x) (notBorrowFlag (s.reg y) (s.reg x)) s

/-- `8xyE` (R120): the operand is `V[x]` itself; `y` is ignored (R79). -/
def execShl (x _y : Nibble) (s : State) : Result :=
  resultThenFlag x (s.reg x <<< 1) (shlFlag (s.reg x)) s

end Sys2Proof.Machine
end

