-- ==== Sys2Proof/Machine/Events.lean ====
section
/-! DEFINITION. The four events of the host (00_scope.md section 5): `STEP` (R70), `TICK` (R190),
`KEYS` (R164), `INIT` (R210, R211); and the three outputs (R145, R155, R186). -/

namespace Sys2Proof.Machine

/-! ## STEP -/

/-- `STEP` of a running core that is not waiting: fetch range check, fetch, decode, execute, in the
order of R188. -/
def fetchDecodeExecute (s : State) : Result :=
  match checkRange s.pc Config.instrBytes with
  | some a => raise (.memoryOutOfBounds a) s
  | none =>
    match decodeWord s.fetchWord with
    | none => raise (.invalidOpcode s.fetchWord s.pc) s
    | some i => exec i s

/-- The `STEP` event (R70): nothing when halted (R182), nothing during a key wait (R163). -/
def stepEvent (s : State) : Result :=
  match s.status, s.wait with
  | .halted _, _ => .next s
  | .running, some _ => .next s
  | .running, none => fetchDecodeExecute s

/-! ## TICK -/

/-- One down-counter, clamped at 0 (R26, R27, R190). -/
def countDown (b : Byte) : Byte := if b = 0#8 then 0#8 else b - 1#8

/-- The `TICK` event (R190): both timers, also during a key wait; nothing when halted. -/
def tickEvent (s : State) : State :=
  match s.status with
  | .halted _ => s
  | .running => (s.setDt (countDown s.dt)).setSt (countDown s.st)

/-! ## KEYS -/

/-- `min(newly)` of R164: the lowest key that was up and is down (D22; assumption 16). -/
def newlyPressed (old new : Keys) : Option Nibble :=
  (List.finRange Config.nKeys).find? fun k => new[k] && !old[k]

/-- The end of a key wait, if there is one and a key is newly pressed (R164). -/
def endWait (k : Keys) (s : State) : State :=
  match s.wait, newlyPressed s.keys k with
  | some x, some key => (s.setV x (BitVec.ofNat 8 key.val)).setWait none
  | some _, none => s
  | none, _ => s

/-- The `KEYS(k)` event (R164): nothing when halted. -/
def keysEvent (k : Keys) (s : State) : State :=
  match s.status with
  | .halted _ => s
  | .running => (endWait k s).setKeys k

/-! ## INIT -/

/-- The preconditions of R211: the ROM fits, does not overlap the font, and `load_addr` is an
address of Memory. -/
def initAccepts (rom : List Byte) (loadAddr : Word) : Bool :=
  decide (loadAddr.toNat + rom.length ≤ Config.memSize) &&
  !touchesFont loadAddr.toNat rom.length &&
  decide (loadAddr.toNat < Config.memSize)

/-- The state `INIT(rom, load_addr)` writes (R210, R212): the spec's whole record; the model's own
fields are the host's and stay (assumption 17). -/
def initState (rom : List Byte) (loadAddr : Word) (s : State) : State :=
  { s with
    v := Vector.replicate Config.nReg 0#8
    i := 0#16
    pc := loadAddr
    sp := 0#8
    stack := Vector.replicate Config.stackDepth 0#16
    dt := 0#8
    st := 0#8
    mem := Memory.writeBytes [] loadAddr.toNat rom
    fb := blankDisplay
    keys := Vector.replicate Config.nKeys false
    wait := none
    status := .running }

/-- The `INIT` event, in any state (R210); refused where R211 is violated (D24; assumption 10). -/
def initEvent (rom : List Byte) (loadAddr : Word) (s : State) : Result :=
  if initAccepts rom loadAddr then .next (initState rom loadAddr s) else .refused .initPrecondition

/-! ## Delivery -/

/-- One event, performed completely (R196). -/
def deliver (e : HostEvent) (s : State) : Result :=
  match e with
  | .init rom loadAddr => initEvent rom loadAddr s
  | .step => stepEvent s
  | .tick => .next (tickEvent s)
  | .keys k => .next (keysEvent k s)

/-- The next event: the first one the host has listed, else a `STEP` (R196; assumption 1). -/
def nextEvent (s : State) : Result :=
  match s.hostEvents with
  | [] => stepEvent s
  | e :: es => deliver e (s.setHostEvents es)

/-! ## Outputs -/

/-- The display output, the whole of `fb` (R145). -/
def State.displayOut (s : State) : Display := s.fb

/-- The beep output: 1 exactly when `ST > 0` (R27, R155). -/
def State.beepOut (s : State) : Bool := decide (0 < s.st.toNat)

/-- The error output (R186). -/
def State.statusOut (s : State) : Status := s.status

end Sys2Proof.Machine
end

