-- ==== Sys2Proof/Machine/Step.lean ====
section
/-! DEFINITION. One step of the machine: one event of the host. -/

namespace Sys2Proof.Machine

/-- One event is delivered and performed: the first of `hostEvents`, else a `STEP` (R70, R196). -/
def step (s : State) : Host.Outcome State Fault Refusal := nextEvent s

/-- `s` with the instruction word `w` placed where the next `STEP` fetches, and nothing in the way of
that `STEP`: running, no key wait, no event pending, and a `PC` whose two bytes exist (the load
address, should `s`'s not). Stands for a program that the host's `INIT` loads (assumption 3). -/
def State.withFetchWord (s : State) (nbits w : Nat) : State :=
  let pc := if s.pc.toNat < 0xFFF then s.pc else Config.loadAddr
  { s with
    pc := pc
    mem := Memory.writeBytes s.mem pc.toNat
      [hiByte (tableWord nbits w), loByte (tableWord nbits w)]
    wait := none
    status := .running
    hostEvents := [] }

end Sys2Proof.Machine
end

