-- ==== Sys2Proof/Safety.lean ====
section
/-! DEFINITION. The terms claims use: the invariant of the machine, what an instruction may write
(the table of R37), and when the next event is a `STEP` that executes. -/

namespace Sys2Proof.Machine

/-- The next event is a `STEP` of a core that neither is halted nor waits for a key (R70). -/
structure State.Ready (s : State) : Prop where
  running : s.status = .running
  notWaiting : s.wait = none
  noEvent : s.hostEvents = []

/-- How many cells of Memory from `mem[I]` upward an instruction accesses (R56, R136). -/
def dataCells : Instr → Nat
  | .drw _ _ n => n.val
  | .ldB _ => 3
  | .stRegs x => x.val + 1
  | .ldRegs x => x.val + 1
  | .cls | .ret | .jp _ | .call _ | .ldI _ | .jpOff _ _ => 0
  | .seImm _ _ | .sneImm _ _ | .ldImm _ _ | .addImm _ _ | .rnd _ _ => 0
  | .seReg _ _ | .sneReg _ _ | .ldReg _ _ | .orReg _ _ | .andReg _ _ | .xorReg _ _ => 0
  | .addReg _ _ | .sub _ _ | .shr _ _ | .subn _ _ | .shl _ _ => 0
  | .skp _ | .sknp _ | .ldVxDt _ | .ldVxK _ | .ldDtVx _ | .ldStVx _ | .addI _ | .ldF _ => 0

/-- What the error held in `status` says about the state it was raised in, which is the state since
then (R181, R183 to R187): the payloads, and the condition that raised it. -/
def State.Explains (s : State) : HaltError → Prop
  | .invalidOpcode w a =>
    a = s.pc ∧ s.pc.toNat ≤ 0xFFE ∧ w = s.fetchWord ∧ decodeWord w = none
  | .stackOverflow =>
    s.pc.toNat ≤ 0xFFE ∧ s.sp.toNat = 16 ∧ ∃ nnn, decodeWord s.fetchWord = some (.call nnn)
  | .stackUnderflow =>
    s.pc.toNat ≤ 0xFFE ∧ s.sp.toNat = 0 ∧ decodeWord s.fetchWord = some .ret
  | .memoryOutOfBounds a =>
    (0xFFE < s.pc.toNat ∧ a.toNat = max 0x1000 s.pc.toNat) ∨
    (s.pc.toNat ≤ 0xFFE ∧ a.toNat = max 0x1000 s.i.toNat ∧
      ∃ i, decodeWord s.fetchWord = some i ∧ 0 < dataCells i ∧ 0x1000 < s.i.toNat + dataCells i)

/-- The invariant of the machine: what holds at reset and after every step. -/
structure State.Inv (s : State) : Prop where
  /-- Memory is in canonical form (assumption 5). -/
  memWf : Memory.wf s.mem
  /-- `0 <= SP <= 16` (R24, R34). -/
  spLegal : s.sp.toNat ≤ 16
  /-- A live stack entry is the address of a `CALL` plus 2 (R102). -/
  liveEntries : ∀ k : Nibble, k.val < s.sp.toNat →
    0x0002 ≤ s.stack[k].toNat ∧ s.stack[k].toNat ≤ 0x1000
  /-- `PC` never exceeds what `Bnnn` can write (R107, R187). -/
  pcBound : s.pc.toNat ≤ 0x10FE
  /-- The font is immutable while stores into it are refused (R214). -/
  fontIntact : s.params.fontWrite = .refuse → ∀ a, inFont a = true → s.byte a = resetByte a
  /-- A halted core is not waiting: the wait is checked before anything can raise (R188). -/
  haltedNotWaiting : ∀ e, s.status = .halted e → s.wait = none
  /-- An error is one the state shows (R181, R186). -/
  errorExplained : ∀ e, s.status = .halted e → s.Explains e

/-- What an instruction may write besides `PC`: a row of the table of R37. -/
structure Footprint where
  regs : List Nibble := []
  i : Bool := false
  sp : Bool := false
  stack : Bool := false
  dt : Bool := false
  st : Bool := false
  fb : Bool := false
  wait : Bool := false
  random : Bool := false
  /-- How many cells from `mem[I]` upward. -/
  cells : Nat := 0

/-- The "writes" column of the table of R37. -/
def footprint : Instr → Footprint
  | .cls => { fb := true }
  | .ret => { sp := true }
  | .jp _ => {}
  | .call _ => { sp := true, stack := true }
  | .seImm _ _ | .sneImm _ _ | .seReg _ _ | .sneReg _ _ => {}
  | .ldImm x _ | .addImm x _ => { regs := [x] }
  | .ldReg x _ | .orReg x _ | .andReg x _ | .xorReg x _ => { regs := [x] }
  | .addReg x _ | .sub x _ | .shr x _ | .subn x _ | .shl x _ => { regs := [x, vf] }
  | .ldI _ => { i := true }
  | .jpOff _ _ => {}
  | .rnd x _ => { regs := [x], random := true }
  | .drw _ _ _ => { regs := [vf], fb := true }
  | .skp _ | .sknp _ => {}
  | .ldVxDt x => { regs := [x] }
  | .ldVxK _ => { wait := true }
  | .ldDtVx _ => { dt := true }
  | .ldStVx _ => { st := true }
  | .addI _ => { regs := [vf], i := true }
  | .ldF _ => { i := true }
  | .ldB _ => { cells := 3 }
  | .stRegs x => { cells := x.val + 1 }
  | .ldRegs x => { regs := (List.finRange 16).filter fun r => decide (r ≤ x) }

/-- `t` keeps of `s` everything a footprint does not list; `PC` and `status` are left open. Memory is
compared byte by byte, the written cells counted from `s`'s `I`. -/
structure KeepsAllBut (f : Footprint) (s t : State) : Prop where
  regs : ∀ r, r ∉ f.regs → t.reg r = s.reg r
  i : f.i = false → t.i = s.i
  sp : f.sp = false → t.sp = s.sp
  stack : f.stack = false → t.stack = s.stack
  dt : f.dt = false → t.dt = s.dt
  st : f.st = false → t.st = s.st
  mem : ∀ a, ¬ (s.i.toNat ≤ a ∧ a < s.i.toNat + f.cells) → t.byte a = s.byte a
  fb : f.fb = false → t.fb = s.fb
  keys : t.keys = s.keys
  wait : f.wait = false → t.wait = s.wait
  params : t.params = s.params
  hostEvents : t.hostEvents = s.hostEvents
  random : f.random = false → t.rndFeed = s.rndFeed ∧ t.rndDraws = s.rndDraws

/-- A set sprite bit of a draw with the register values `vx`, `vy` lands on pixel `(py, px)`: bit
`7 - c` of the byte at `I + r` (R142), wrapped in both directions (R143). -/
def SpriteHits (s : State) (vx vy : Byte) (n : Nibble) (py : Fin 32) (px : Fin 64) : Prop :=
  ∃ r c : Nat, r < n.val ∧ c < 8 ∧ (s.byte (s.i.toNat + r)).getLsbD (7 - c) = true ∧
    py.val = (vy.toNat + r) % 32 ∧ px.val = (vx.toNat + c) % 64

/-- The invalid words of R80, class by class. -/
def InvalidWord (w : Word) : Prop :=
  (w.toNat / 4096 = 0x0 ∧ w.toNat ≠ 0x00E0 ∧ w.toNat ≠ 0x00EE) ∨
  (w.toNat / 4096 = 0x5 ∧ w.toNat % 16 ≠ 0) ∨
  (w.toNat / 4096 = 0x8 ∧ w.toNat % 16 ∈ [0x8, 0x9, 0xA, 0xB, 0xC, 0xD, 0xF]) ∨
  (w.toNat / 4096 = 0x9 ∧ w.toNat % 16 ≠ 0) ∨
  (w.toNat / 4096 = 0xE ∧ w.toNat % 256 ∉ [0x9E, 0xA1]) ∨
  (w.toNat / 4096 = 0xF ∧
    w.toNat % 256 ∉ [0x07, 0x0A, 0x15, 0x18, 0x1E, 0x29, 0x33, 0x55, 0x65])

end Sys2Proof.Machine
end

