-- ==== Sys2Proof/Certificates/Slice0/Obligations.lean ====
section
/-! DEFINITION. The statements for the provers, each from the rule its docstring names. -/

open Sys2Proof Sys2Proof.Machine

/-! ## Encoding and decoding -/

/-- Every operand value of every well-formed instruction survives encoding (R72, R74, R75, R78). -/
def Obligations.DecodeOfEncodeIsTheInstruction : Prop :=
  ∀ i : Instr, i.wellFormed = true → decodeWord (encode i) = some i

/-- The other direction: each word has one meaning, and no bit of it is dropped (R72, R76, R79; the
bit patterns are the spec's general knowledge, assumption 12). -/
def Obligations.EncodeOfDecodeIsTheWord : Prop :=
  ∀ (w : Word) (i : Instr), decodeWord w = some i → i.wellFormed = true ∧ encode i = w

/-- R78: a word is an instruction exactly when it matches that instruction's mask and match. -/
def Obligations.DecodeFollowsMaskAndMatch : Prop :=
  ∀ w : Word,
    (∀ i, decodeWord w = some i → rowOf i ∈ opcodeRows ∧ w &&& (rowOf i).mask = (rowOf i).value) ∧
    (∀ r ∈ opcodeRows, w &&& r.mask = r.value → ∃ i, decodeWord w = some i ∧ rowOf i = r)

/-- R80: the invalid words are exactly the table's, and a ready core that fetches one halts with the
word and its address, everything else unchanged (R181, R183). -/
def Obligations.InvalidWordsAreTheTableAndRaise : Prop :=
  (∀ w : Word, decodeWord w = none ↔ InvalidWord w) ∧
  ∀ s : State, s.Ready → s.pc.toNat ≤ 0xFFE → InvalidWord s.fetchWord →
    ∃ t, step s = .next t ∧ t.status = .halted (.invalidOpcode s.fetchWord s.pc) ∧
      t = { s with status := t.status }

/-- One word of each family, written out from R78's patterns, and one that D5's strict match refuses.
The patterns are the spec's general knowledge (R77, R78, decisions D3 and D5): assumption 12. -/
def Obligations.SampleWordsDecode : Prop :=
  decodeWord 0x1ABC#16 = some (.jp 0xABC#12) ∧
  decodeWord 0xB2FE#16 = some (.jpOff 2 0x2FE#12) ∧
  decodeWord 0x8126#16 = some (.shr 1 2) ∧
  decodeWord 0x7A10#16 = some (.addImm 10 0x10#8) ∧
  decodeWord 0xF333#16 = some (.ldB 3) ∧
  decodeWord 0xD015#16 = some (.drw 0 1 5) ∧
  decodeWord 0xF518#16 = some (.ldStVx 5) ∧
  decodeWord 0xE29E#16 = some (.skp 2) ∧
  decodeWord 0xC30F#16 = some (.rnd 3 0x0F#8) ∧
  decodeWord 0x5121#16 = none

/-- R51, R72: instructions are two bytes, high byte first, one after the other, in a byte stream and
where `PC` points alike. The byte order is the spec's general knowledge (R51, decision D1):
assumption 12. -/
def Obligations.ByteStreamsDecodeInOrder : Prop :=
  (∀ (i : Instr) (rest : List Byte), i.wellFormed = true →
    (∃ hi lo : Byte, encodeBytes i = [hi, lo] ∧
      hi.toNat * 256 + lo.toNat = (encode i).toNat ∧
      decodeBytes (hi :: lo :: rest) = .ok (i, rest)) ∧
    decodeBytes (encodeBytes i ++ rest) = .ok (i, rest) ∧
    decodeTableWord 16 (encode i).toNat = some i) ∧
  ∀ s : State,
    s.fetchWord.toNat = (s.byte s.pc.toNat).toNat * 256 + (s.byte (s.pc.toNat + 1)).toNat

/-! ## Events -/

/-- R70: a ready core whose two bytes at `PC` exist and decode to `i` executes `i`; R196: a listed
event is performed first, and then gone. That the events stand in a list of `State`, and that an
empty list means a `STEP`, is the model's choice (assumption 1). -/
def Obligations.StepExecutesTheFetchedInstruction : Prop :=
  (∀ (s : State) (i : Instr), s.Ready → s.pc.toNat ≤ 0xFFE →
    decodeWord (wordOfBytes (s.byte s.pc.toNat) (s.byte (s.pc.toNat + 1))) = some i →
    step s = exec i s) ∧
  (∀ (s : State) (e : HostEvent) (es : List HostEvent), s.hostEvents = e :: es →
    step s = deliver e { s with hostEvents := es })

/-- The fetch rows of R187: above `0xFFF` the payload is `PC`, at `0xFFF` it is `0x1000`. -/
def Obligations.FetchOutOfRangeRaises : Prop :=
  ∀ s : State, s.Ready → 0xFFF ≤ s.pc.toNat →
    ∃ t, step s = .next t ∧ t = { s with status := t.status } ∧
      t.status = .halted (.memoryOutOfBounds (if s.pc.toNat = 0xFFF then 0x1000#16 else s.pc))

/-- R182 (decision D21): once halted, `STEP`, `TICK` and `KEYS` change nothing; an `INIT` that R211
accepts leaves the halt. -/
def Obligations.HaltedIsTerminalButForInit : Prop :=
  ∀ (s : State) (e : HaltError), s.status = .halted e →
    deliver .step s = .next s ∧ deliver .tick s = .next s ∧ (∀ k, deliver (.keys k) s = .next s) ∧
    ∀ rom la, initAccepts rom la = true →
      ∃ t, deliver (.init rom la) s = .next t ∧ t.status = .running ∧ t.pc = la

/-- R163 (decision D30): during a key wait a `STEP` changes nothing and `TICK` still moves the timers
and nothing else. -/
def Obligations.KeyWaitHoldsStepNotTick : Prop :=
  ∀ (s : State) (x : Nibble), s.status = .running → s.wait = some x →
    deliver .step s = .next s ∧
    ∃ t, deliver .tick s = .next t ∧ t = { s with dt := t.dt, st := t.st } ∧
      t.dt.toNat = s.dt.toNat - 1 ∧ t.st.toNat = s.st.toNat - 1

/-- R163, R164: a step that ends a key wait is a `KEYS` event with a newly pressed key, whose lowest
number it delivers, or an `INIT`. -/
def Obligations.OnlyKeysOrInitEndTheWait : Prop :=
  ∀ (s t : State) (x : Nibble), s.wait = some x → step s = .next t → t.wait ≠ some x →
    t.wait = none ∧
    ((∃ k es key, s.hostEvents = .keys k :: es ∧ newlyPressed s.keys k = some key ∧
        t.reg x = BitVec.ofNat 8 key.val) ∨
      ∃ rom la es, s.hostEvents = .init rom la :: es)

/-- R190: both timers down by one, clamped at 0, and nothing else, whether or not the core waits for a
key; nothing when halted (decision D21). -/
def Obligations.TickDecrementsBothTimers : Prop :=
  ∀ s : State, ∃ t, deliver .tick s = .next t ∧ t = { s with dt := t.dt, st := t.st } ∧
    (s.status = .running →
      (t.dt.toNat = if 0 < s.dt.toNat then s.dt.toNat - 1 else s.dt.toNat) ∧
      (t.st.toNat = if 0 < s.st.toNat then s.st.toNat - 1 else s.st.toNat)) ∧
    (∀ e, s.status = .halted e → t = s)

/-- R191, T7: after `j` `TICK`s the timers are `max(N - j, 0)`, so the beep lasts exactly `N` ticks. -/
def Obligations.TimersCountTicks : Prop :=
  ∀ (s : State) (j : Nat), s.status = .running →
    ((tickEvent^[j]) s).dt.toNat = s.dt.toNat - j ∧
    ((tickEvent^[j]) s).st.toNat = s.st.toNat - j ∧
    (((tickEvent^[j]) s).beepOut = true ↔ j < s.st.toNat) ∧
    (tickEvent^[j]) s = { s with dt := ((tickEvent^[j]) s).dt, st := ((tickEvent^[j]) s).st }

/-- R164 (decision D22): a running core takes the new key state; in a wait with a newly pressed key
the lowest such number goes to `V[x]` and the wait ends; nothing else changes. -/
def Obligations.KeysEventDeliversLowestNewKey : Prop :=
  ∀ (s : State) (k : Keys), s.status = .running →
    ∃ t, deliver (.keys k) s = .next t ∧ t.keys = k ∧
      t = { s with keys := t.keys, v := t.v, wait := t.wait } ∧
      (∀ (x key : Nibble), s.wait = some x → (k[key] = true ∧ s.keys[key] = false) →
        (∀ j : Nibble, j < key → ¬ (k[j] = true ∧ s.keys[j] = false)) →
        t.wait = none ∧ (t.reg x).toNat = key.val ∧ ∀ r, r ≠ x → t.reg r = s.reg r) ∧
      ((s.wait = none ∨ ∀ j : Nibble, ¬ (k[j] = true ∧ s.keys[j] = false)) →
        t.wait = s.wait ∧ t.v = s.v)

/-- R210, R211 (decisions D16, D24): what an accepted `INIT` leaves in every piece of state, and that
any other is refused. The font is R58's table, one number a glyph and two hexadecimal digits a byte
(decision D11, assumption 5). The model's own fields stay (assumption 17). -/
def Obligations.InitWritesTheWholeRecord : Prop :=
  ∀ (s : State) (rom : List Byte) (la : Word),
    ((la.toNat + rom.length ≤ 0x1000 ∧ la.toNat ≤ 0xFFF ∧
        ∀ k, k < rom.length → ¬ (0x050 ≤ la.toNat + k ∧ la.toNat + k ≤ 0x09F)) →
      ∃ t, deliver (.init rom la) s = .next t ∧
        (∀ r, t.reg r = 0#8) ∧ t.i = 0#16 ∧ t.pc = la ∧ t.sp = 0#8 ∧
        (∀ k : Nibble, t.stack[k] = 0#16) ∧ t.dt = 0#8 ∧ t.st = 0#8 ∧
        (∀ k (h : k < rom.length), t.byte (la.toNat + k) = rom[k]) ∧
        (∀ a, ¬ (la.toNat ≤ a ∧ a < la.toNat + rom.length) → t.byte a = resetByte a) ∧
        (∀ d j, d < 16 → j < 5 → (t.byte (0x050 + 5 * d + j)).toNat =
          [0xF0909090F0, 0x2060202070, 0xF010F080F0, 0xF010F010F0, 0x9090F01010, 0xF080F010F0,
            0xF080F090F0, 0xF010204040, 0xF090F090F0, 0xF090F010F0, 0xF090F09090, 0xE090E090E0,
            0xF0808080F0, 0xE0909090E0, 0xF080F080F0, 0xF080F08080].getD d 0 / 256 ^ (4 - j) %
              256) ∧
        (∀ a, ¬ (la.toNat ≤ a ∧ a < la.toNat + rom.length) → ¬ (0x050 ≤ a ∧ a ≤ 0x09F) →
          t.byte a = 0#8) ∧
        (∀ y x, t.pixel y x = false) ∧ (∀ k : Nibble, t.keys[k] = false) ∧
        t.wait = none ∧ t.status = .running ∧ t.beepOut = false ∧
        t.params = s.params ∧ t.hostEvents = s.hostEvents ∧ t.rndFeed = s.rndFeed ∧
        t.rndDraws = s.rndDraws) ∧
    (¬ (la.toNat + rom.length ≤ 0x1000 ∧ la.toNat ≤ 0xFFF ∧
        ∀ k, k < rom.length → ¬ (0x050 ≤ la.toNat + k ∧ la.toNat + k ≤ 0x09F)) →
      deliver (.init rom la) s = .refused .initPrecondition)

/-- The state after reset is the one an `INIT` of an empty ROM at `0x200` leaves, whatever came before
(R210, R212), this hardware's parameters given. The empty ROM and `0x200` are the model's choice
(assumption 3). -/
def Obligations.ResetIsInitOfTheEmptyRom : Prop :=
  ∀ s : State, s.params = Config.hardware → s.hostEvents = [] → s.rndFeed = [] → s.rndDraws = 0 →
    deliver (.init [] 0x200#16) s = .next State.reset ∧
    (∀ a, State.reset.byte a = resetByte a) ∧
    (∀ a, ¬ (0x050 ≤ a ∧ a ≤ 0x09F) → State.reset.byte a = 0#8) ∧ State.reset.pc = 0x200#16

/-- R155: the beep is on exactly while `ST > 0`; it falls only at the `TICK` that takes `ST` from 1 to
0, at an `Fx18` that writes 0, or at an `INIT`. -/
def Obligations.BeepFallsOnlyByTickOrStore : Prop :=
  (∀ s : State, s.beepOut = true ↔ 0 < s.st.toNat) ∧
  ∀ s t : State, step s = .next t → s.beepOut = true → t.beepOut = false →
    (∃ es, s.hostEvents = .tick :: es ∧ s.st = 1#8) ∨
    (∃ x, (s.hostEvents = [] ∨ ∃ es, s.hostEvents = .step :: es) ∧
      decodeWord s.fetchWord = some (.ldStVx x) ∧ s.reg x = 0#8) ∨
    (∃ rom la es, s.hostEvents = .init rom la :: es)

/-! ## Memory -/

/-- Equal memories are equal data: the canonical form has one list for each contents (R50; the
model's representation, assumption 5). -/
def Obligations.EqualContentsAreEqualMemories : Prop :=
  ∀ m m' : Memory, Memory.wf m → Memory.wf m' → (∀ a, Memory.read m a = Memory.read m' a) → m = m'

/-- R53 (C7, decision D13): a store with a target cell in the font is refused as a whole under
`refuse`, and completes like any other under `allow`. -/
def Obligations.FontStoresFollowThePolicy : Prop :=
  ∀ (s : State) (i : Instr) (x : Nibble), (i = .ldB x ∨ i = .stRegs x) →
    s.i.toNat + dataCells i ≤ 0x1000 →
    (∃ k, k < dataCells i ∧ 0x050 ≤ s.i.toNat + k ∧ s.i.toNat + k ≤ 0x09F) →
    (s.params.fontWrite = .refuse → exec i s = .refused (.fontStore s.i)) ∧
    (s.params.fontWrite = .allow → ∃ t, exec i s = .next t ∧ t.status = s.status ∧
      t.pc = s.pc + 2#16)

/-- The data rows of R187: `Dxyn` with `n > 0`, `Fx33`, `Fx55`, `Fx65` raise when the last cell is
above `0xFFF`; the payload is `I` if that is above `0xFFF`, else `0x1000`; nothing else changes. -/
def Obligations.DataOutOfRangeRaises : Prop :=
  ∀ (s : State) (i : Instr), 0 < dataCells i → 0x1000 < s.i.toNat + dataCells i →
    ∃ t, exec i s = .next t ∧ t = { s with status := t.status } ∧
      t.status = .halted (.memoryOutOfBounds (if 0xFFF < s.i.toNat then s.i else 0x1000#16))

/-- R63: bytes stored by `Fx55` are what a later fetch of those cells reads. -/
def Obligations.StoredCodeIsFetched : Prop :=
  ∀ (s t u : State) (x k k' : Nibble), Memory.wf s.mem → s.i.toNat + x.val + 1 ≤ 0x1000 →
    exec (.stRegs x) s = .next t → k'.val = k.val + 1 → k' ≤ x →
    u.mem = t.mem → u.pc.toNat = s.i.toNat + k.val →
    u.fetchWord = wordOfBytes (s.reg k) (s.reg k')

/-! ## Control flow -/

/-- R100: `1nnn` jumps to `nnn`, unchecked, and changes nothing else. The bit pattern is the spec's
general knowledge (R77, assumption 12). -/
def Obligations.JumpSetsPc : Prop :=
  (∀ w : Word, w &&& 0xF000#16 = 0x1000#16 → decodeWord w = some (.jp (w.extractLsb' 0 12))) ∧
  ∀ (nnn : Addr12) (s : State), ∃ t, exec (.jp nnn) s = .next t ∧ t.pc.toNat = nnn.toNat ∧
    t = { s with pc := t.pc } ∧ ∀ a, t.byte a = s.byte a

/-- R101: `2nnn` pushes the address after it and jumps; with 16 entries it raises `StackOverflow` and
changes nothing else. `SP > 16` is no state of the spec's: the stop is the model's choice (assumption
11). The bit pattern is the spec's general knowledge (R77, assumption 12). -/
def Obligations.CallPushesAndJumps : Prop :=
  (∀ w : Word, w &&& 0xF000#16 = 0x2000#16 → decodeWord w = some (.call (w.extractLsb' 0 12))) ∧
  ∀ (nnn : Addr12) (s : State),
    (s.sp.toNat < 16 → ∃ t, exec (.call nnn) s = .next t ∧ t.pc.toNat = nnn.toNat ∧
      t.sp.toNat = s.sp.toNat + 1 ∧
      (∀ k : Nibble, k.val = s.sp.toNat → t.stack[k].toNat = (s.pc.toNat + 2) % 65536) ∧
      (∀ k : Nibble, k.val ≠ s.sp.toNat → t.stack[k] = s.stack[k]) ∧
      t = { s with pc := t.pc, sp := t.sp, stack := t.stack } ∧ ∀ a, t.byte a = s.byte a) ∧
    (s.sp.toNat = 16 → exec (.call nnn) s = .next { s with status := .halted .stackOverflow }) ∧
    (16 < s.sp.toNat → exec (.call nnn) s = .fault (.stackPointerIllegal s.sp))

/-- R102 (decision D26): `00EE` pops into `PC`, unchecked; with no entry it raises `StackUnderflow` and
changes nothing else. The stop on `SP > 16` is the model's choice (assumption 11). -/
def Obligations.ReturnPopsIntoPc : Prop :=
  ∀ s : State,
    (∀ k : Nibble, s.sp.toNat = k.val + 1 → ∃ t, exec .ret s = .next t ∧ t.pc = s.stack[k] ∧
      t.sp.toNat = k.val ∧ t = { s with pc := t.pc, sp := t.sp } ∧ ∀ a, t.byte a = s.byte a) ∧
    (s.sp.toNat = 0 → exec .ret s = .next { s with status := .halted .stackUnderflow }) ∧
    (16 < s.sp.toNat → exec .ret s = .fault (.stackPointerIllegal s.sp))

/-- T4 (R101, R102): a `CALL` followed at once by a `RET` goes on after the `CALL` with the stack depth
and every live entry as before. -/
def Obligations.CallThenReturnComesBack : Prop :=
  ∀ (nnn : Addr12) (s : State), s.sp.toNat < 16 →
    ∃ t u, exec (.call nnn) s = .next t ∧ exec .ret t = .next u ∧ u.pc = s.pc + 2#16 ∧ u.sp = s.sp ∧
      (∀ k : Nibble, k.val < s.sp.toNat → u.stack[k] = s.stack[k]) ∧
      u = { s with pc := u.pc, stack := u.stack }

/-- R103, R104: the skips on an immediate. The bit patterns are the spec's general knowledge (R77,
assumption 12). -/
def Obligations.SkipsOnImmediate : Prop :=
  (∀ w : Word,
    (w &&& 0xF000#16 = 0x3000#16 →
      decodeWord w = some (.seImm (w.extractLsb' 8 4).toFin (w.extractLsb' 0 8))) ∧
    (w &&& 0xF000#16 = 0x4000#16 →
      decodeWord w = some (.sneImm (w.extractLsb' 8 4).toFin (w.extractLsb' 0 8)))) ∧
  ∀ (x : Nibble) (kk : Byte) (s : State),
    (∃ t, exec (.seImm x kk) s = .next t ∧ t = { s with pc := t.pc } ∧
      (s.reg x = kk → t.pc = s.pc + 4#16) ∧ (s.reg x ≠ kk → t.pc = s.pc + 2#16)) ∧
    (∃ t, exec (.sneImm x kk) s = .next t ∧ t = { s with pc := t.pc } ∧
      (s.reg x ≠ kk → t.pc = s.pc + 4#16) ∧ (s.reg x = kk → t.pc = s.pc + 2#16))

/-- R105, R106: the skips on two registers. The bit patterns are the spec's general knowledge (R77,
assumption 12). -/
def Obligations.SkipsOnRegisters : Prop :=
  (∀ w : Word,
    (w &&& 0xF00F#16 = 0x5000#16 →
      decodeWord w = some (.seReg (w.extractLsb' 8 4).toFin (w.extractLsb' 4 4).toFin)) ∧
    (w &&& 0xF00F#16 = 0x9000#16 →
      decodeWord w = some (.sneReg (w.extractLsb' 8 4).toFin (w.extractLsb' 4 4).toFin))) ∧
  ∀ (x y : Nibble) (s : State),
    (∃ t, exec (.seReg x y) s = .next t ∧ t = { s with pc := t.pc } ∧
      (s.reg x = s.reg y → t.pc = s.pc + 4#16) ∧ (s.reg x ≠ s.reg y → t.pc = s.pc + 2#16)) ∧
    (∃ t, exec (.sneReg x y) s = .next t ∧ t = { s with pc := t.pc } ∧
      (s.reg x ≠ s.reg y → t.pc = s.pc + 4#16) ∧ (s.reg x = s.reg y → t.pc = s.pc + 2#16))

/-- R107 (C1, decision D6): `Bnnn` adds the register that the top nibble of its `nnn` names, `V[0]`
under the other setting; the sum is not reduced modulo 4096 and not checked. -/
def Obligations.JumpWithOffsetAddsTheRegister : Prop :=
  (∀ w : Word, w &&& 0xF000#16 = 0xB000#16 →
    decodeWord w = some (.jpOff (w.extractLsb' 8 4).toFin (w.extractLsb' 0 12))) ∧
  ∀ (x : Nibble) (nnn : Addr12) (s : State),
    ∃ t, exec (.jpOff x nnn) s = .next t ∧ t = { s with pc := t.pc } ∧
      (s.params.jumpOffset = .vx → t.pc.toNat = nnn.toNat + (s.reg x).toNat) ∧
      (s.params.jumpOffset = .v0 → t.pc.toNat = nnn.toNat + (s.reg 0).toNat)

/-- T6, R223: a jump to itself is a fixed point of any number of `STEP`s. -/
def Obligations.SelfJumpRunsForever : Prop :=
  ∀ (s : State) (nnn : Addr12), s.Ready → s.pc = zext16 nnn → nnn.toNat ≤ 0xFFE →
    decodeWord s.fetchWord = some (.jp nnn) → ∀ n, core.run n s = .next s

/-! ## Registers and arithmetic -/

/-- R110, R112: the loads of a register, which write no flag. The bit patterns are the spec's general
knowledge (R77, assumption 12). -/
def Obligations.RegisterLoads : Prop :=
  (∀ w : Word,
    (w &&& 0xF000#16 = 0x6000#16 →
      decodeWord w = some (.ldImm (w.extractLsb' 8 4).toFin (w.extractLsb' 0 8))) ∧
    (w &&& 0xF00F#16 = 0x8000#16 →
      decodeWord w = some (.ldReg (w.extractLsb' 8 4).toFin (w.extractLsb' 4 4).toFin))) ∧
  ∀ (x y : Nibble) (kk : Byte) (s : State),
    (∃ t, exec (.ldImm x kk) s = .next t ∧ t.reg x = kk ∧ (∀ r, r ≠ x → t.reg r = s.reg r) ∧
      t.pc = s.pc + 2#16 ∧ t = { s with v := t.v, pc := t.pc }) ∧
    (∃ t, exec (.ldReg x y) s = .next t ∧ t.reg x = s.reg y ∧ (∀ r, r ≠ x → t.reg r = s.reg r) ∧
      t.pc = s.pc + 2#16 ∧ t = { s with v := t.v, pc := t.pc })

/-- R113 to R115 (decision D8): OR, AND, XOR bit by bit; `VF` is not written unless it is `x`. -/
def Obligations.BitwiseOperations : Prop :=
  ∀ (x y : Nibble) (s : State),
    (∃ t, exec (.orReg x y) s = .next t ∧
      (∀ k, k < 8 → (t.reg x).getLsbD k = ((s.reg x).getLsbD k || (s.reg y).getLsbD k)) ∧
      (∀ r, r ≠ x → t.reg r = s.reg r) ∧ t.pc = s.pc + 2#16 ∧ t = { s with v := t.v, pc := t.pc }) ∧
    (∃ t, exec (.andReg x y) s = .next t ∧
      (∀ k, k < 8 → (t.reg x).getLsbD k = ((s.reg x).getLsbD k && (s.reg y).getLsbD k)) ∧
      (∀ r, r ≠ x → t.reg r = s.reg r) ∧ t.pc = s.pc + 2#16 ∧ t = { s with v := t.v, pc := t.pc }) ∧
    (∃ t, exec (.xorReg x y) s = .next t ∧
      (∀ k, k < 8 → (t.reg x).getLsbD k = ((s.reg x).getLsbD k ^^ (s.reg y).getLsbD k)) ∧
      (∀ r, r ≠ x → t.reg r = s.reg r) ∧ t.pc = s.pc + 2#16 ∧ t = { s with v := t.v, pc := t.pc })

/-- R111 (decision D4): add immediate, modulo 256, no flag. -/
def Obligations.AddImmediateWrapsWithoutFlag : Prop :=
  ∀ (x : Nibble) (kk : Byte) (s : State),
    ∃ t, exec (.addImm x kk) s = .next t ∧ (t.reg x).toNat = ((s.reg x).toNat + kk.toNat) % 256 ∧
      (∀ r, r ≠ x → t.reg r = s.reg r) ∧ t.pc = s.pc + 2#16 ∧ t = { s with v := t.v, pc := t.pc }

/-- R116, R122 (decision D7): sum modulo 256 and carry; with `x = F` the carry remains. -/
def Obligations.AddSetsCarry : Prop :=
  ∀ (x y : Nibble) (s : State),
    ∃ t, exec (.addReg x y) s = .next t ∧
      (x ≠ 15 → (t.reg x).toNat = ((s.reg x).toNat + (s.reg y).toNat) % 256) ∧
      (t.reg 15 = if 255 < (s.reg x).toNat + (s.reg y).toNat then 1#8 else 0#8) ∧
      (∀ r, r ≠ x → r ≠ 15 → t.reg r = s.reg r) ∧ t.pc = s.pc + 2#16 ∧
      t = { s with v := t.v, pc := t.pc }

/-- R117, R119, R122 (decision D7): both operand orders, the flag 1 when there is no borrow. Which of
the two words subtracts which way is the spec's general knowledge (G11, assumption 12). -/
def Obligations.SubtractionsSetNotBorrow : Prop :=
  ∀ (x y : Nibble) (s : State),
    (∃ t, exec (.sub x y) s = .next t ∧
      (x ≠ 15 → (t.reg x).toNat = ((s.reg x).toNat + 256 - (s.reg y).toNat) % 256) ∧
      (t.reg 15 = if (s.reg y).toNat ≤ (s.reg x).toNat then 1#8 else 0#8) ∧
      (∀ r, r ≠ x → r ≠ 15 → t.reg r = s.reg r) ∧ t.pc = s.pc + 2#16 ∧
      t = { s with v := t.v, pc := t.pc }) ∧
    (∃ t, exec (.subn x y) s = .next t ∧
      (x ≠ 15 → (t.reg x).toNat = ((s.reg y).toNat + 256 - (s.reg x).toNat) % 256) ∧
      (t.reg 15 = if (s.reg x).toNat ≤ (s.reg y).toNat then 1#8 else 0#8) ∧
      (∀ r, r ≠ x → r ≠ 15 → t.reg r = s.reg r) ∧ t.pc = s.pc + 2#16 ∧
      t = { s with v := t.v, pc := t.pc })

/-- R118, R120, R79, R122 (decision D7): the shifts take `V[x]` itself, `y` has no effect, the flag is
the bit shifted out. Which of the two words shifts which way is the spec's general knowledge (G12,
assumption 12). -/
def Obligations.ShiftsTakeVxAndSetTheBitOut : Prop :=
  ∀ (x y : Nibble) (s : State),
    (∃ t, exec (.shr x y) s = .next t ∧ (x ≠ 15 → (t.reg x).toNat = (s.reg x).toNat / 2) ∧
      (t.reg 15).toNat = (s.reg x).toNat % 2 ∧
      (∀ r, r ≠ x → r ≠ 15 → t.reg r = s.reg r) ∧ t.pc = s.pc + 2#16 ∧
      t = { s with v := t.v, pc := t.pc }) ∧
    (∃ t, exec (.shl x y) s = .next t ∧ (x ≠ 15 → (t.reg x).toNat = (s.reg x).toNat * 2 % 256) ∧
      (t.reg 15).toNat = (s.reg x).toNat / 128 ∧
      (∀ r, r ≠ x → r ≠ 15 → t.reg r = s.reg r) ∧ t.pc = s.pc + 2#16 ∧
      t = { s with v := t.v, pc := t.pc })

/-- R21: the seven flag writers leave 0 or 1 in `VF` on every execution that does not raise; no other
instruction changes `VF` unless it is one of its ordinary destinations. With `x = F` the flag remains
by decision D7, the other instructions leave `VF` alone by D8 (assumption 13), and `Fx1E` clears it
where the sum stays in range by D9 (assumption 14). -/
def Obligations.FlagWritersAlwaysWriteVf : Prop :=
  ∀ (i : Instr) (s t : State), s.status = .running → t.status = .running → exec i s = .next t →
    ((∃ x y n : Nibble, i = .addReg x y ∨ i = .sub x y ∨ i = .subn x y ∨ i = .shr x y ∨
        i = .shl x y ∨ i = .addI x ∨ i = .drw x y n) → t.reg vf = 0#8 ∨ t.reg vf = 1#8) ∧
    (vf ∉ (footprint i).regs → t.reg vf = s.reg vf)

/-! ## Index register and memory -/

/-- R130: `Annn` loads `I`. The bit pattern is the spec's general knowledge (R77, assumption 12). -/
def Obligations.LoadIndexImmediate : Prop :=
  (∀ w : Word, w &&& 0xF000#16 = 0xA000#16 → decodeWord w = some (.ldI (w.extractLsb' 0 12))) ∧
  ∀ (nnn : Addr12) (s : State), ∃ t, exec (.ldI nnn) s = .next t ∧ t.i.toNat = nnn.toNat ∧
    t.pc = s.pc + 2#16 ∧ t = { s with i := t.i, pc := t.pc } ∧ ∀ a, t.byte a = s.byte a

/-- R131 (decision D9): 16 bits of the sum in `I`, the flag whether the 17-bit sum is above `0xFFF`. -/
def Obligations.AddIndexFlagsPastMemory : Prop :=
  ∀ (x : Nibble) (s : State),
    ∃ t, exec (.addI x) s = .next t ∧ t.i.toNat = (s.i.toNat + (s.reg x).toNat) % 65536 ∧
      (t.reg 15 = if 0x0FFF < s.i.toNat + (s.reg x).toNat then 1#8 else 0#8) ∧
      (∀ r, r ≠ 15 → t.reg r = s.reg r) ∧ t.pc = s.pc + 2#16 ∧
      t = { s with i := t.i, v := t.v, pc := t.pc }

/-- R132 (decisions D11, D12): `Fx29` gives the address of a glyph, five bytes inside the font region;
above `0x0F` it is refused under `refuse` and uses the low nibble under `mask`. -/
def Obligations.LoadGlyphAddress : Prop :=
  ∀ (x : Nibble) (s : State),
    (((s.reg x).toNat ≤ 0x0F ∨ s.params.highDigit = .mask) →
      ∃ t, exec (.ldF x) s = .next t ∧ t.i.toNat = 0x050 + 5 * ((s.reg x).toNat % 16) ∧
        t.pc = s.pc + 2#16 ∧ t = { s with i := t.i, pc := t.pc } ∧
        ∀ k, k < 5 → inFont (t.i.toNat + k) = true) ∧
    ((0x0F < (s.reg x).toNat ∧ s.params.highDigit = .refuse) →
      exec (.ldF x) s = .refused (.highDigit (s.reg x)))

/-- R133 (decision D14): the three decimal digits at `I`, `I+1`, `I+2`, hundreds first; every other byte
of memory and `I` unchanged. -/
def Obligations.StoreDecimalDigits : Prop :=
  ∀ (x : Nibble) (s : State), Memory.wf s.mem → s.i.toNat + 3 ≤ 0x1000 →
    (s.params.fontWrite = .allow ∨ ∀ k, k < 3 → inFont (s.i.toNat + k) = false) →
    ∃ t, exec (.ldB x) s = .next t ∧
      (t.byte s.i.toNat).toNat = (s.reg x).toNat / 100 ∧
      (t.byte (s.i.toNat + 1)).toNat = (s.reg x).toNat / 10 % 10 ∧
      (t.byte (s.i.toNat + 2)).toNat = (s.reg x).toNat % 10 ∧
      (∀ a, ¬ (s.i.toNat ≤ a ∧ a < s.i.toNat + 3) → t.byte a = s.byte a) ∧
      t.pc = s.pc + 2#16 ∧ t = { s with mem := t.mem, pc := t.pc }

/-- R134 (decision D10): `V[0] .. V[x]` at `I .. I+x`; every other byte of memory and `I` unchanged. -/
def Obligations.StoreRegisters : Prop :=
  ∀ (x : Nibble) (s : State), Memory.wf s.mem → s.i.toNat + x.val + 1 ≤ 0x1000 →
    (s.params.fontWrite = .allow ∨ ∀ k, k ≤ x.val → inFont (s.i.toNat + k) = false) →
    ∃ t, exec (.stRegs x) s = .next t ∧
      (∀ r, r ≤ x → t.byte (s.i.toNat + r.val) = s.reg r) ∧
      (∀ a, ¬ (s.i.toNat ≤ a ∧ a ≤ s.i.toNat + x.val) → t.byte a = s.byte a) ∧
      t.pc = s.pc + 2#16 ∧ t = { s with mem := t.mem, pc := t.pc }

/-- R135 (decision D10): `V[0] .. V[x]` from `I .. I+x`; the registers above, `I` and memory unchanged. -/
def Obligations.LoadRegisters : Prop :=
  ∀ (x : Nibble) (s : State), s.i.toNat + x.val + 1 ≤ 0x1000 →
    ∃ t, exec (.ldRegs x) s = .next t ∧
      (∀ r, r ≤ x → t.reg r = s.byte (s.i.toNat + r.val)) ∧ (∀ r, x < r → t.reg r = s.reg r) ∧
      t.pc = s.pc + 2#16 ∧ t = { s with v := t.v, pc := t.pc }

/-- T8: registers stored at `I` and loaded back from the same `I`, whatever the registers became in
between, are the registers stored. -/
def Obligations.StoreThenLoadRestoresRegisters : Prop :=
  ∀ (x : Nibble) (s t u : State), Memory.wf s.mem → s.i.toNat + x.val + 1 ≤ 0x1000 →
    exec (.stRegs x) s = .next t → u.mem = t.mem → u.i = t.i →
    ∃ w, exec (.ldRegs x) u = .next w ∧ (∀ r, r ≤ x → w.reg r = s.reg r) ∧
      (∀ r, x < r → w.reg r = u.reg r)

/-! ## Display -/

/-- R140: `00E0` clears every pixel and changes nothing else but `PC`; initialization clears the display
too. -/
def Obligations.ClearDisplay : Prop :=
  (∀ w : Word, w &&& 0xFFFF#16 = 0x00E0#16 → decodeWord w = some .cls) ∧
  (∀ s : State, ∃ t, exec .cls s = .next t ∧ (∀ y x, t.pixel y x = false) ∧ t.pc = s.pc + 2#16 ∧
    t.reg 15 = s.reg 15 ∧ t = { s with fb := t.fb, pc := t.pc } ∧ ∀ a, t.byte a = s.byte a) ∧
  ∀ (s t : State) (rom : List Byte) (la : Word), deliver (.init rom la) s = .next t →
    ∀ y x, t.pixel y x = false

/-- R141 to R144 (decisions D14, D15, assumption 15): each pixel a set sprite bit lands on is toggled, every other
pixel stays, `VF` is 1 exactly when a set pixel was cleared, else 0; coordinates are read before
`VF` is written; with `n = 0` the access is empty and cannot raise. -/
def Obligations.DrawXorsTheSprite : Prop :=
  ∀ (x y n : Nibble) (s : State), (n.val = 0 ∨ s.i.toNat + n.val ≤ 0x1000) →
    ∃ t, exec (.drw x y n) s = .next t ∧
      (∀ py px, SpriteHits s (s.reg x) (s.reg y) n py px → t.pixel py px = !s.pixel py px) ∧
      (∀ py px, ¬ SpriteHits s (s.reg x) (s.reg y) n py px → t.pixel py px = s.pixel py px) ∧
      ((∃ py px, SpriteHits s (s.reg x) (s.reg y) n py px ∧ s.pixel py px = true) →
        t.reg 15 = 1#8) ∧
      ((∀ py px, SpriteHits s (s.reg x) (s.reg y) n py px → s.pixel py px = false) →
        t.reg 15 = 0#8) ∧
      (∀ r, r ≠ 15 → t.reg r = s.reg r) ∧ t.pc = s.pc + 2#16 ∧
      t = { s with fb := t.fb, v := t.v, pc := t.pc } ∧ ∀ a, t.byte a = s.byte a

/-- T3, R141: drawing the same sprite again at the same place restores the display, and the second
draw reports a collision exactly if some set sprite bit landed on a pixel that was clear before the
first draw. R144's derived sentence, that it always reports one, is not so where every such pixel was
set before (assumption 22). Sprite bits and wrap: decisions D14, D15 (assumption 15). -/
def Obligations.DrawTwiceRestoresTheDisplay : Prop :=
  ∀ (x y n : Nibble) (s t u : State), (n.val = 0 ∨ s.i.toNat + n.val ≤ 0x1000) →
    exec (.drw x y n) s = .next t → u.fb = t.fb → u.mem = t.mem → u.i = t.i →
    u.reg x = s.reg x → u.reg y = s.reg y →
    ∃ w, exec (.drw x y n) u = .next w ∧ w.fb = s.fb ∧
      (w.reg 15 = 1#8 ↔ ∃ py px, SpriteHits s (s.reg x) (s.reg y) n py px ∧
        s.pixel py px = false)

/-! ## Timers, input, random -/

/-- R150: `Fx07` reads the delay timer. The bit pattern is the spec's general knowledge (R77, assumption
12). -/
def Obligations.ReadDelayTimer : Prop :=
  (∀ w : Word, w &&& 0xF0FF#16 = 0xF007#16 →
    decodeWord w = some (.ldVxDt (w.extractLsb' 8 4).toFin)) ∧
  ∀ (x : Nibble) (s : State), ∃ t, exec (.ldVxDt x) s = .next t ∧ t.reg x = s.dt ∧
    (∀ r, r ≠ x → t.reg r = s.reg r) ∧ t.pc = s.pc + 2#16 ∧ t = { s with v := t.v, pc := t.pc } ∧
    ∀ a, t.byte a = s.byte a

/-- R151, R152 (decision D28): `Fx15` and `Fx18` write all 8 bits at once; the beep follows `ST`. -/
def Obligations.SetTimers : Prop :=
  ∀ (x : Nibble) (s : State),
    (∃ t, exec (.ldDtVx x) s = .next t ∧ t.dt = s.reg x ∧ t.pc = s.pc + 2#16 ∧
      t = { s with dt := t.dt, pc := t.pc } ∧ ∀ a, t.byte a = s.byte a) ∧
    (∃ t, exec (.ldStVx x) s = .next t ∧ t.st = s.reg x ∧ (t.beepOut = true ↔ s.reg x ≠ 0#8) ∧
      t.pc = s.pc + 2#16 ∧ t = { s with st := t.st, pc := t.pc } ∧ ∀ a, t.byte a = s.byte a)

/-- R160, R161 (decision D12): skip on the key numbered by `V[x]`; above `0x0F` refused under `refuse`,
the low nibble under `mask`. That the key is numbered by the value of `V[x]`, not by `x`, is the
spec's general knowledge (G15, assumption 16). -/
def Obligations.SkipsOnKey : Prop :=
  ∀ (x : Nibble) (s : State),
    (((s.reg x).toNat ≤ 0x0F ∨ s.params.highDigit = .mask) →
      ∀ k : Nibble, k.val = (s.reg x).toNat % 16 →
        (∃ t, exec (.skp x) s = .next t ∧ t = { s with pc := t.pc } ∧
          (s.keys[k] = true → t.pc = s.pc + 4#16) ∧ (s.keys[k] = false → t.pc = s.pc + 2#16)) ∧
        (∃ t, exec (.sknp x) s = .next t ∧ t = { s with pc := t.pc } ∧
          (s.keys[k] = false → t.pc = s.pc + 4#16) ∧ (s.keys[k] = true → t.pc = s.pc + 2#16))) ∧
    ((0x0F < (s.reg x).toNat ∧ s.params.highDigit = .refuse) →
      exec (.skp x) s = .refused (.highDigit (s.reg x)) ∧
      exec (.sknp x) s = .refused (.highDigit (s.reg x)))

/-- R162 (decision D22): `Fx0A` enters the wait and advances `PC`, nothing more; the next `STEP`s
change nothing (R163). -/
def Obligations.KeyWaitBegins : Prop :=
  ∀ (x : Nibble) (s : State), ∃ t, exec (.ldVxK x) s = .next t ∧ t.wait = some x ∧
    t.pc = s.pc + 2#16 ∧ t = { s with wait := t.wait, pc := t.pc } ∧
    deliver .step t = .next t ∧ ∀ a, t.byte a = s.byte a

/-- R170, R171: `Cxkk` ANDs one byte of the random source with `kk` and consumes it: the next byte the
host supplied, else a free value about which nothing is known (assumption 2). -/
def Obligations.RandomIsMasked : Prop :=
  ∀ (x : Nibble) (kk : Byte) (s : State), ∃ t, exec (.rnd x kk) s = .next t ∧
    (∀ b bs, s.rndFeed = b :: bs → t.reg x = b &&& kk ∧ t.rndFeed = bs) ∧
    (s.rndFeed = [] → t.reg x = Config.randomByte s.rndDraws &&& kk ∧ t.rndFeed = []) ∧
    t.rndDraws = s.rndDraws + 1 ∧
    (∀ k, kk.getLsbD k = false → (t.reg x).getLsbD k = false) ∧
    (∀ r, r ≠ x → t.reg r = s.reg r) ∧ t.pc = s.pc + 2#16 ∧
    t = { s with v := t.v, pc := t.pc, rndFeed := t.rndFeed, rndDraws := t.rndDraws }

/-! ## The whole machine -/

/-- The frame of all 34 instructions: the "writes" column of the table of R37. -/
def Obligations.EveryInstructionKeepsTheRest : Prop :=
  ∀ (i : Instr) (s t : State), exec i s = .next t → KeepsAllBut (footprint i) s t

/-- R181 (decision D18): an instruction that changes `status` changes nothing else, and only `CALL`,
`RET` and the four instructions with a data access can. -/
def Obligations.ErrorsChangeOnlyStatus : Prop :=
  ∀ (i : Instr) (s t : State), exec i s = .next t → t.status ≠ s.status →
    t = { s with status := t.status } ∧ (∃ e, t.status = .halted e) ∧
    ((∃ nnn, i = .call nnn) ∨ i = .ret ∨ 0 < dataCells i)

/-- R154: within `STEP` the only writes to `DT` and `ST` are those of `Fx15` and `Fx18`. -/
def Obligations.StepNeverTicks : Prop :=
  ∀ s t : State, deliver .step s = .next t →
    (t.dt ≠ s.dt → ∃ x, decodeWord s.fetchWord = some (.ldDtVx x) ∧ t.dt = s.reg x) ∧
    (t.st ≠ s.st → ∃ x, decodeWord s.fetchWord = some (.ldStVx x) ∧ t.st = s.reg x)

/-- R153: no instruction reads `ST`: with another sound timer an instruction has the same outcome, and
`ST` is then what the instruction wrote or what it was. -/
def Obligations.NoInstructionReadsTheSoundTimer : Prop :=
  ∀ (i : Instr) (s : State) (b : Byte),
    (∀ t, exec i s = .next t → ∃ u, exec i { s with st := b } = .next u ∧ u = { t with st := u.st } ∧
      (u.st = t.st ∨ (t.st = s.st ∧ u.st = b))) ∧
    (∀ f, exec i s = .fault f → exec i { s with st := b } = .fault f) ∧
    (∀ r, exec i s = .refused r → exec i { s with st := b } = .refused r)

/-- R184, R185: `2nnn` raises `StackOverflow` when `SP = 16`, `00EE` raises `StackUnderflow` when
`SP = 0`, and `PC` still addresses the instruction; no other instruction and no other `SP` does. -/
def Obligations.StackErrorsAreThoseOfCallAndReturn : Prop :=
  ∀ s : State,
    (∀ nnn, s.sp.toNat = 16 →
      ∃ t, exec (.call nnn) s = .next t ∧ t.status = .halted .stackOverflow ∧ t.pc = s.pc) ∧
    (s.sp.toNat = 0 → ∃ t, exec .ret s = .next t ∧ t.status = .halted .stackUnderflow ∧ t.pc = s.pc) ∧
    ∀ (i : Instr) (t : State), s.status = .running → exec i s = .next t →
      (t.status = .halted .stackOverflow → s.sp.toNat = 16 ∧ ∃ nnn, i = .call nnn) ∧
      (t.status = .halted .stackUnderflow → s.sp.toNat = 0 ∧ i = .ret)

/-- The invariant is kept by every step, whatever event it is: the memory keeps its canonical form
(assumption 5), the stack holds addresses of calls plus 2 (R102), `PC` stays in the range the
instructions can reach (R107), the font stays intact while stores into it are refused (R214), and an
error is the one the state shows, with its payload (R181, R187; decisions D18 and D19, assumption 6). -/
def Obligations.EveryStepKeepsTheInvariant : Prop :=
  ∀ s t : State, s.Inv → step s = .next t → t.Inv

/-- The invariant holds at reset (R210, R212; the reset state is the model's choice, assumptions 3 and
4). -/
def Obligations.ResetMeetsTheInvariant : Prop := State.reset.Inv

/-- No step from a state that meets the invariant ends in the model's one fault (assumption 11), since
`0 <= SP <= 16` (R24, R34). -/
def Obligations.NoFaultUnderTheInvariant : Prop :=
  ∀ (s : State) (f : Fault), s.Inv → step s ≠ .fault f

/-- R8, R53, R132, R160, R211: a step is refused only where the spec says `refuse`: an `INIT` that R211
excludes, or a `STEP` of a running core, not waiting, whose fetch is in range and whose instruction is
one of the five (decisions D12, D13, D24; assumptions 8, 9 and 10). -/
def Obligations.RefusalsAreTheSpecs : Prop :=
  ∀ (s : State) (r : Refusal), step s = .refused r →
    (∃ rom la es, s.hostEvents = .init rom la :: es ∧ initAccepts rom la = false ∧
      r = .initPrecondition) ∨
    ((s.hostEvents = [] ∨ ∃ es, s.hostEvents = .step :: es) ∧
      s.status = .running ∧ s.wait = none ∧ s.pc.toNat ≤ 0xFFE ∧
      ((∃ x i, decodeWord s.fetchWord = some i ∧ (i = .skp x ∨ i = .sknp x ∨ i = .ldF x) ∧
          s.params.highDigit = .refuse ∧ 0x0F < (s.reg x).toNat ∧ r = .highDigit (s.reg x)) ∨
        (∃ x i, decodeWord s.fetchWord = some i ∧ (i = .ldB x ∨ i = .stRegs x) ∧
          s.params.fontWrite = .refuse ∧ s.i.toNat + dataCells i ≤ 0x1000 ∧
          (∃ k, k < dataCells i ∧ inFont (s.i.toNat + k) = true) ∧ r = .fontStore s.i)))
end

