-- ==== Sys2Proof/Laws/Config.lean ====
section
/-! SUPPORT. The word types of State are those of the widths of R5: each equation elaborates only where
the two widths are one number. -/

namespace Sys2Proof.Machine.State

theorem reg_width : (reg : State → Fin Config.nReg → BitVec Config.regW) = reg := rfl

theorem byte_width : (byte : State → Nat → BitVec Config.regW) = byte := rfl

theorem i_width : (State.i : State → BitVec Config.iW) = State.i := rfl

theorem pc_width : (State.pc : State → BitVec Config.pcW) = State.pc := rfl

theorem sp_width : (State.sp : State → BitVec Config.spW) = State.sp := rfl

theorem stack_width :
    (State.stack : State → Vector (BitVec Config.stackEntryW) Config.stackDepth) = State.stack := rfl

theorem dt_width : (State.dt : State → BitVec Config.timerW) = State.dt := rfl

theorem st_width : (State.st : State → BitVec Config.timerW) = State.st := rfl

end Sys2Proof.Machine.State
end

