-- ==== Sys2Proof/Laws/Decode.lean ====
section
/-! SUPPORT. The fields of the words the encoder builds, a word from its fields, bytes and words, and
what the three masks of R78 say about the fields of a word. -/

namespace Sys2Proof

theorem fieldClass_eq (w : Word) : fieldClass w = w.toNat / 4096 := by
  simp [fieldClass, Nat.shiftRight_eq_div_pow]; omega

theorem fieldX_val (w : Word) : (fieldX w).val = w.toNat / 256 % 16 := by
  simp [fieldX, Nat.shiftRight_eq_div_pow]

theorem fieldY_val (w : Word) : (fieldY w).val = w.toNat / 16 % 16 := by
  simp [fieldY, Nat.shiftRight_eq_div_pow]

theorem fieldN_val (w : Word) : (fieldN w).val = w.toNat % 16 := by
  simp [fieldN]

theorem fieldKK_toNat (w : Word) : (fieldKK w).toNat = w.toNat % 256 := by
  simp [fieldKK]

theorem fieldNNN_toNat (w : Word) : (fieldNNN w).toNat = w.toNat % 4096 := by
  simp [fieldNNN]

theorem wordXYN_toNat {c n : Nat} (hc : c < 16) (hn : n < 16) (x y : Nibble) :
    (wordXYN c x y n).toNat = c * 4096 + x.val * 256 + y.val * 16 + n := by
  simp [wordXYN]; omega

theorem wordXKK_toNat {c : Nat} (hc : c < 16) (x : Nibble) (kk : Byte) :
    (wordXKK c x kk).toNat = c * 4096 + x.val * 256 + kk.toNat := by
  simp [wordXKK]; omega

theorem wordNNN_toNat {c : Nat} (hc : c < 16) (nnn : Addr12) :
    (wordNNN c nnn).toNat = c * 4096 + nnn.toNat := by
  simp [wordNNN]; omega

/-! ## The fields of an encoded word -/

section

variable {c n : Nat} (hc : c < 16) (hn : n < 16) (x y : Nibble) (kk : Byte) (nnn : Addr12)

include hc in
@[simp] theorem fieldClass_wordNNN : fieldClass (wordNNN c nnn) = c := by
  rw [fieldClass_eq, wordNNN_toNat hc]; omega

include hc in
@[simp] theorem fieldNNN_wordNNN : fieldNNN (wordNNN c nnn) = nnn := by
  apply BitVec.eq_of_toNat_eq
  rw [fieldNNN_toNat, wordNNN_toNat hc]; omega

include hc in
theorem fieldX_wordNNN : (fieldX (wordNNN c nnn)).val = nnn.toNat / 256 := by
  rw [fieldX_val, wordNNN_toNat hc]; omega

include hc in
@[simp] theorem fieldClass_wordXKK : fieldClass (wordXKK c x kk) = c := by
  rw [fieldClass_eq, wordXKK_toNat hc]; omega

include hc in
@[simp] theorem fieldX_wordXKK : fieldX (wordXKK c x kk) = x := by
  apply Fin.ext
  rw [fieldX_val, wordXKK_toNat hc]; omega

include hc in
@[simp] theorem fieldKK_wordXKK : fieldKK (wordXKK c x kk) = kk := by
  apply BitVec.eq_of_toNat_eq
  rw [fieldKK_toNat, wordXKK_toNat hc]; omega

include hc hn in
@[simp] theorem fieldClass_wordXYN : fieldClass (wordXYN c x y n) = c := by
  rw [fieldClass_eq, wordXYN_toNat hc hn]; omega

include hc hn in
@[simp] theorem fieldX_wordXYN : fieldX (wordXYN c x y n) = x := by
  apply Fin.ext
  rw [fieldX_val, wordXYN_toNat hc hn]; omega

include hc hn in
@[simp] theorem fieldY_wordXYN : fieldY (wordXYN c x y n) = y := by
  apply Fin.ext
  rw [fieldY_val, wordXYN_toNat hc hn]; omega

include hc hn in
@[simp] theorem fieldN_wordXYN : (fieldN (wordXYN c x y n)).val = n := by
  rw [fieldN_val, wordXYN_toNat hc hn]; omega

end

/-! ## A word from its fields -/

theorem wordNNN_fields (w : Word) : wordNNN (fieldClass w) (fieldNNN w) = w := by
  apply BitVec.eq_of_toNat_eq
  have hc : fieldClass w < 16 := by rw [fieldClass_eq]; omega
  rw [wordNNN_toNat hc, fieldNNN_toNat, fieldClass_eq]; omega

theorem wordXKK_fields (w : Word) : wordXKK (fieldClass w) (fieldX w) (fieldKK w) = w := by
  apply BitVec.eq_of_toNat_eq
  have hc : fieldClass w < 16 := by rw [fieldClass_eq]; omega
  rw [wordXKK_toNat hc, fieldKK_toNat, fieldClass_eq, fieldX_val]; omega

theorem wordXYN_fields (w : Word) :
    wordXYN (fieldClass w) (fieldX w) (fieldY w) (fieldN w).val = w := by
  apply BitVec.eq_of_toNat_eq
  have hc : fieldClass w < 16 := by rw [fieldClass_eq]; omega
  rw [wordXYN_toNat hc (fieldN w).isLt, fieldClass_eq, fieldX_val, fieldY_val, fieldN_val]; omega

/-- Putting the two bytes of a word together again gives the word (R51). -/
@[simp] theorem wordOfBytes_bytes (w : Word) : wordOfBytes (hiByte w) (loByte w) = w := by
  apply BitVec.eq_of_toNat_eq
  simp [wordOfBytes, hiByte, loByte, Nat.shiftRight_eq_div_pow]
  omega

theorem wordOfBytes_toNat (hi lo : Byte) : (wordOfBytes hi lo).toNat = hi.toNat * 256 + lo.toNat := by
  simp [wordOfBytes]; omega

/-- The class mask. -/
theorem and_F000_toNat (w : Word) : (w &&& 0xF000#16).toNat = fieldClass w * 4096 := by
  have h : w &&& 0xF000#16 = (w >>> 12) <<< 12 := by
    apply BitVec.eq_of_getLsbD_eq
    intro i hi
    interval_cases i <;> simp
  rw [h, fieldClass_eq]
  simp [Nat.shiftRight_eq_div_pow, Nat.shiftLeft_eq]
  omega

/-- The class and low-nibble mask. -/
theorem and_F00F_toNat (w : Word) :
    (w &&& 0xF00F#16).toNat = fieldClass w * 4096 + (fieldN w).val := by
  have h : w &&& 0xF00F#16 = (w >>> 12) <<< 12 ||| (w <<< 12) >>> 12 := by
    apply BitVec.eq_of_getLsbD_eq
    intro i hi
    interval_cases i <;> simp
  have hd : (w >>> 12) <<< 12 ||| (w <<< 12) >>> 12 = (w >>> 12) <<< 12 + (w <<< 12) >>> 12 := by
    rw [BitVec.add_eq_or_of_and_eq_zero]
    apply BitVec.eq_of_getLsbD_eq
    intro i hi
    interval_cases i <;> simp
  rw [h, hd, fieldClass_eq, fieldN_val]
  simp [Nat.shiftRight_eq_div_pow, Nat.shiftLeft_eq]
  omega

/-- The class and low-byte mask. -/
theorem and_F0FF_toNat (w : Word) :
    (w &&& 0xF0FF#16).toNat = fieldClass w * 4096 + (fieldKK w).toNat := by
  have h : w &&& 0xF0FF#16 = (w >>> 12) <<< 12 ||| (w <<< 8) >>> 8 := by
    apply BitVec.eq_of_getLsbD_eq
    intro i hi
    interval_cases i <;> simp
  have hd : (w >>> 12) <<< 12 ||| (w <<< 8) >>> 8 = (w >>> 12) <<< 12 + (w <<< 8) >>> 8 := by
    rw [BitVec.add_eq_or_of_and_eq_zero]
    apply BitVec.eq_of_getLsbD_eq
    intro i hi
    interval_cases i <;> simp
  rw [h, hd, fieldClass_eq, fieldKK_toNat]
  simp [Nat.shiftRight_eq_div_pow, Nat.shiftLeft_eq]
  omega

end Sys2Proof
end

