-- ==== Sys2Proof/Laws/Display.lean ====
section
/-! SUPPORT. The XOR-blit engine pixel by pixel: what the loops of R141 leave in each pixel and in
the collision flag. -/

namespace Sys2Proof.Machine

theorem togglePixel_get (d : Display) (py q : Fin 32) (px p : Fin 64) :
    (togglePixel d py px)[q][p] = if q = py ∧ p = px then !d[q][p] else d[q][p] := by
  by_cases hq : q = py
  · subst hq
    by_cases hp : p = px
    · subst hp; simp [togglePixel]
    · have : px.val ≠ p.val := fun h => hp (Fin.ext h.symm)
      simp [togglePixel, hp, this]
  · have : py.val ≠ q.val := fun h => hq (Fin.ext h.symm)
    simp [togglePixel, hq, this]

/-- The bit of one sprite row that lands on column `p`, among the columns `cs`. -/
def rowBit (x0 : Nat) (b : Byte) (cs : List Nat) (p : Fin 64) : Bool :=
  cs.any fun c => b.getLsbD (7 - c) && decide (wrapCol x0 c = p)

theorem rowBit_cons (x0 : Nat) (b : Byte) (c : Nat) (cs : List Nat) (p : Fin 64) :
    rowBit x0 b (c :: cs) p =
      ((b.getLsbD (7 - c) && decide (wrapCol x0 c = p)) || rowBit x0 b cs p) := by
  simp [rowBit]

/-- The bit of the sprite rows from row `r` on that lands on a pixel. -/
def spriteBit (x0 y0 : Nat) : Nat → List Byte → Fin 32 → Fin 64 → Bool
  | _, [], _, _ => false
  | r, b :: bs, q, p =>
    (decide (wrapRow y0 r = q) && rowBit x0 b (List.range 8) p) || spriteBit x0 y0 (r + 1) bs q p

@[simp] theorem wrapRow_val (y0 r : Nat) : (wrapRow y0 r).val = (y0 + r) % 32 := rfl

@[simp] theorem wrapCol_val (x0 c : Nat) : (wrapCol x0 c).val = (x0 + c) % 64 := rfl

theorem wrapCol_inj {x0 c c' : Nat} (hc : c < 64) (hc' : c' < 64)
    (h : wrapCol x0 c = wrapCol x0 c') : c = c' := by
  have := Fin.ext_iff.1 h
  simp only [wrapCol_val] at this
  omega

theorem wrapRow_inj {y0 r r' : Nat} (hr : r < 32) (hr' : r' < 32)
    (h : wrapRow y0 r = wrapRow y0 r') : r = r' := by
  have := Fin.ext_iff.1 h
  simp only [wrapRow_val] at this
  omega

theorem blitRow_spec (x0 : Nat) (py : Fin 32) (b : Byte) (cs : List Nat) (hn : cs.Nodup)
    (h64 : ∀ c ∈ cs, c < 64) (d : Display) (hit : Bool) :
    (∀ q p, (blitRow x0 py b cs (d, hit)).1[q][p] =
      (d[q][p] ^^ (decide (py = q) && rowBit x0 b cs p))) ∧
    ((blitRow x0 py b cs (d, hit)).2 = true ↔
      hit = true ∨ ∃ p, rowBit x0 b cs p = true ∧ d[py][p] = true) := by
  induction cs generalizing d hit with
  | nil => simp [blitRow, rowBit]
  | cons c cs ih =>
    have hn' := List.nodup_cons.1 hn
    have hout : ∀ p, wrapCol x0 c = p → rowBit x0 b cs p = false := by
      intro p hp
      simp only [rowBit, List.any_eq_false, Bool.and_eq_true, decide_eq_true_eq, not_and]
      intro c' hc' _ h
      have := wrapCol_inj (h64 c' (by simp [hc'])) (h64 c (by simp)) (h.trans hp.symm)
      exact hn'.1 (this ▸ hc')
    have ih := fun d hit => ih hn'.2 (fun c' hc' => h64 c' (by simp [hc'])) d hit
    by_cases hb : b.getLsbD (7 - c)
    · simp only [blitRow, hb, if_true]
      obtain ⟨ih1, ih2⟩ := ih (togglePixel d py (wrapCol x0 c)) (hit || d[py][wrapCol x0 c])
      refine ⟨fun q p => ?_, ?_⟩
      · rw [ih1, togglePixel_get]
        by_cases hq : py = q
        · by_cases hp : wrapCol x0 c = p
          · have := hout p hp
            simp [hq, hp, this, rowBit_cons, hb]
          · simp [hq, hp, rowBit_cons, hb, eq_comm (a := p)]
        · simp [hq, eq_comm (a := q)]
      · rw [ih2]
        constructor
        · rintro (h | ⟨p, hp, hd⟩)
          · rcases Bool.or_eq_true_iff.1 h with h | h
            · exact .inl h
            · exact .inr ⟨_, by simp [rowBit_cons, hb], h⟩
          · have hne : ¬ wrapCol x0 c = p := fun h => by simp [hout p h] at hp
            rw [togglePixel_get, if_neg (by simp [eq_comm (a := p), hne])] at hd
            refine .inr ⟨p, ?_, hd⟩
            have : rowBit x0 b (c :: cs) p = rowBit x0 b cs p := by simp [rowBit_cons, hne]
            rw [this, hp]
        · rintro (h | ⟨p, hp, hd⟩)
          · simp [h]
          · by_cases hc : wrapCol x0 c = p
            · subst hc
              exact .inl (Bool.or_eq_true_iff.2 (.inr hd))
            · have : rowBit x0 b (c :: cs) p = rowBit x0 b cs p := by simp [rowBit_cons, hc]
              refine .inr ⟨p, by rw [← this, hp], ?_⟩
              rw [togglePixel_get, if_neg (by simp [eq_comm (a := p), hc])]
              exact hd
    · have hrow : ∀ p, rowBit x0 b (c :: cs) p = rowBit x0 b cs p := by simp [rowBit_cons, hb]
      obtain ⟨ih1, ih2⟩ := ih d hit
      simp only [blitRow, hb, hrow, Bool.false_eq_true, if_false]
      exact ⟨ih1, ih2⟩

theorem spriteBit_of_wrapRow_ne {x0 y0 r : Nat} {bs : List Byte} {q : Fin 32} {p : Fin 64}
    (h : ∀ k, r ≤ k → k < r + bs.length → wrapRow y0 k ≠ q) : spriteBit x0 y0 r bs q p = false := by
  induction bs generalizing r with
  | nil => rfl
  | cons b bs ih =>
    simp only [List.length_cons] at h
    have hbs := ih (r := r + 1) fun k hk hk' => h k (by omega) (by omega)
    simp [spriteBit, h r (le_refl r) (by omega), hbs]

/-- The loops of R141 pixel by pixel: each pixel is XORed with the sprite bit that lands on it, and
the flag says whether one that was set received a 1 (at most 32 rows, so no pixel is met twice). -/
theorem blitRows_spec (x0 y0 r : Nat) (bs : List Byte) (h32 : r + bs.length ≤ 32) (d : Display)
    (hit : Bool) :
    (∀ q p, (blitRows x0 y0 r bs (d, hit)).1[q][p] = (d[q][p] ^^ spriteBit x0 y0 r bs q p)) ∧
    ((blitRows x0 y0 r bs (d, hit)).2 = true ↔
      hit = true ∨ ∃ q p, spriteBit x0 y0 r bs q p = true ∧ d[q][p] = true) := by
  induction bs generalizing r d hit with
  | nil => simp [blitRows, spriteBit]
  | cons b bs ih =>
    simp only [List.length_cons] at h32
    obtain ⟨h1, h2⟩ := blitRow_spec x0 (wrapRow y0 r) b (List.range 8) List.nodup_range
      (fun c hc => by have := List.mem_range.1 hc; omega) d hit
    have hout : ∀ q p, wrapRow y0 r = q → spriteBit x0 y0 (r + 1) bs q p = false := by
      intro q p hq
      refine spriteBit_of_wrapRow_ne fun k hk hk' h => ?_
      have := wrapRow_inj (by omega) (by omega) (h.trans hq.symm)
      omega
    obtain ⟨ih1, ih2⟩ := ih (r + 1) (by omega) (blitRow x0 (wrapRow y0 r) b (List.range 8) (d, hit)).1
      (blitRow x0 (wrapRow y0 r) b (List.range 8) (d, hit)).2
    refine ⟨fun q p => ?_, ?_⟩
    · rw [blitRows, ih1, h1, spriteBit]
      by_cases hq : wrapRow y0 r = q
      · simp [hq, hout q p hq]
      · simp [hq]
    · rw [blitRows, ih2, h2]
      constructor
      · rintro ((h | ⟨p, hp, hd⟩) | ⟨q, p, hs, hd⟩)
        · exact .inl h
        · exact .inr ⟨wrapRow y0 r, p, by simp [spriteBit, hp], hd⟩
        · have hne : ¬ wrapRow y0 r = q := fun h => by simp [hout q p h] at hs
          rw [h1] at hd
          exact .inr ⟨q, p, by simp [spriteBit, hs], by simpa [hne] using hd⟩
      · rintro (h | ⟨q, p, hs, hd⟩)
        · exact .inl (.inl h)
        · by_cases hq : wrapRow y0 r = q
          · subst hq
            exact .inl (.inr ⟨p, by simpa [spriteBit, hout _ p rfl] using hs, hd⟩)
          · refine .inr ⟨q, p, by simpa [spriteBit, hq] using hs, ?_⟩
            rw [h1]
            simpa [hq] using hd

theorem spriteBit_eq_true {x0 y0 r : Nat} {bs : List Byte} {q : Fin 32} {p : Fin 64} :
    spriteBit x0 y0 r bs q p = true ↔
      ∃ (k : Nat) (hk : k < bs.length) (c : Nat), c < 8 ∧ (bs[k]).getLsbD (7 - c) = true ∧
        wrapRow y0 (r + k) = q ∧ wrapCol x0 c = p := by
  induction bs generalizing r with
  | nil => simp [spriteBit]
  | cons b bs ih =>
    simp only [spriteBit, Bool.or_eq_true, Bool.and_eq_true, decide_eq_true_eq, ih, rowBit,
      List.any_eq_true, List.mem_range]
    constructor
    · rintro (⟨hq, c, hc, hb, hp⟩ | ⟨k, hk, c, hc, hb, hq, hp⟩)
      · exact ⟨0, by simp, c, hc, by simpa using hb, by simpa using hq, hp⟩
      · exact ⟨k + 1, by simpa using hk, c, hc, by simpa using hb,
          by rw [← hq]; congr 1; omega, hp⟩
    · rintro ⟨k, hk, c, hc, hb, hq, hp⟩
      cases k with
      | zero => exact .inl ⟨by simpa using hq, c, hc, by simpa using hb, hp⟩
      | succ k =>
        exact .inr ⟨k, by simpa using hk, c, hc, by simpa using hb,
          by rw [← hq]; congr 1; omega, hp⟩

/-- The draw of R141 in the words of R142 to R144: row `k`, column `c` of the sprite lands on pixel
`((vy + k) mod 32, (vx + c) mod 64)`. -/
theorem blit_spec (vx vy : Byte) (rows : List Byte) (h : rows.length ≤ 32) (d : Display) :
    (∀ q p, (blit vx vy rows d).1[q][p] =
      (d[q][p] ^^ spriteBit (vx.toNat % 64) (vy.toNat % 32) 0 rows q p)) ∧
    ((blit vx vy rows d).2 = true ↔
      ∃ q p, spriteBit (vx.toNat % 64) (vy.toNat % 32) 0 rows q p = true ∧ d[q][p] = true) := by
  simpa [blit] using blitRows_spec (vx.toNat % 64) (vy.toNat % 32) 0 rows (by omega) d false

end Sys2Proof.Machine
end

