-- ==== Sys2Proof/Laws/Memory.lean ====
section
/-! SUPPORT. Memory: reads after writes, and every operation keeps the canonical form. -/

namespace Sys2Proof.Machine.Memory

/-- Outside the font the reset contents are zero (R57). -/
theorem resetByte_of_not_inFont {a : Nat} (h : inFont a = false) : resetByte a = 0#8 := by
  simp [resetByte, h]

theorem wf_nil : Memory.wf [] := ⟨.nil, fun _ h => absurd h (by simp)⟩

theorem wf_tail {c : Host.Cell} {m : Memory} (h : Memory.wf (c :: m)) : Memory.wf m :=
  ⟨h.1.of_cons, fun d hd => h.2 d (List.mem_cons_of_mem c hd)⟩

/-- An address below every listed one reads as the reset contents. -/
theorem read_of_lt {m : Memory} {a : Nat} (h : ∀ c ∈ m, a < c.1) : read m a = resetByte a := by
  induction m with
  | nil => rfl
  | cons c m ih =>
    have hc := h c (by simp)
    have : c.1 ≠ a := by omega
    simp [read, this, ih fun d hd => h d (List.mem_cons_of_mem c hd)]

theorem head_lt {c : Host.Cell} {m : Memory} (h : Memory.wf (c :: m)) : ∀ d ∈ m, c.1 < d.1 :=
  (List.pairwise_cons.1 h.1).1

/-- A write leaves every other address alone. -/
theorem read_write_ne (m : Memory) {a a' : Nat} (b : Byte) (h : a' ≠ a) :
    read (write m a b) a' = read m a' := by
  induction m with
  | nil => by_cases hb : b = resetByte a <;> simp [write, read, hb, h.symm]
  | cons c m ih =>
    by_cases h1 : c.1 < a
    · simp [write, read, h1, ih]
    · by_cases h2 : c.1 = a <;> by_cases hb : b = resetByte a <;>
        simp [write, read, h1, h2, hb, h.symm]

/-- A read after a write to the same address gives the value written. -/
theorem read_write_self {m : Memory} (hm : Memory.wf m) (a : Nat) (b : Byte) :
    read (write m a b) a = b := by
  induction m with
  | nil => by_cases hb : b = resetByte a <;> simp [write, read, hb]
  | cons c m ih =>
    by_cases h1 : c.1 < a
    · have : c.1 ≠ a := by omega
      simp [write, read, h1, this, ih (wf_tail hm)]
    · have hlt := head_lt hm
      by_cases h2 : c.1 = a
      · have hrest : read m a = resetByte a := read_of_lt (by simpa [h2] using hlt)
        by_cases hb : b = resetByte a
        · simp [write, h2, hb, hrest]
        · simp [write, read, h2, hb]
      · have hrest : read m a = resetByte a :=
          read_of_lt fun d hd => by have := hlt d hd; omega
        by_cases hb : b = resetByte a
        · simp [write, read, h1, h2, hb, hrest]
        · simp [write, read, h1, h2, hb]

theorem read_write {m : Memory} (hm : Memory.wf m) (a a' : Nat) (b : Byte) :
    read (write m a b) a' = if a' = a then b else read m a' := by
  by_cases h : a' = a
  · subst h; simp [read_write_self hm]
  · simp [h, read_write_ne m b h]

theorem mem_write {m : Memory} {a : Nat} {b : Byte} {c : Host.Cell} (h : c ∈ write m a b) :
    c ∈ m ∨ (c = (a, b) ∧ b ≠ resetByte a) := by
  induction m with
  | nil => by_cases hb : b = resetByte a <;> simp_all [write]
  | cons d m ih =>
    by_cases h1 : d.1 < a
    · simp only [write, h1, if_true, List.mem_cons] at h
      rcases h with h | h
      · exact .inl (by simp [h])
      · rcases ih h with h | h
        · exact .inl (by simp [h])
        · exact .inr h
    · by_cases h2 : d.1 = a <;> by_cases hb : b = resetByte a <;>
        simp only [write, h1, h2, hb, if_true, if_false, lt_irrefl, List.mem_cons] at h ⊢
      · exact .inl (.inr h)
      · rcases h with h | h
        · exact .inr ⟨h, by simpa using hb⟩
        · exact .inl (.inr h)
      · exact .inl h
      · rcases h with h | h
        · exact .inr ⟨h, by simpa using hb⟩
        · exact .inl h

/-- A write inside the address space keeps the canonical form. -/
theorem wf_write {m : Memory} (hm : Memory.wf m) {a : Nat} (b : Byte) (ha : a < Config.memSize) :
    Memory.wf (write m a b) := by
  refine ⟨?_, fun c hc => ?_⟩
  · induction m with
    | nil => by_cases hb : b = resetByte a <;> simp [write, hb]
    | cons d m ih =>
      have hlt := head_lt hm
      by_cases h1 : d.1 < a
      · simp only [write, h1, if_true, List.pairwise_cons]
        refine ⟨fun c hc => ?_, ih (wf_tail hm)⟩
        rcases mem_write hc with hc | ⟨rfl, -⟩
        · exact hlt c hc
        · exact h1
      · by_cases h2 : d.1 = a <;> by_cases hb : b = resetByte a <;>
          simp only [write, h1, h2, hb, if_true, if_false, lt_irrefl, List.pairwise_cons]
        · exact (wf_tail hm).1
        · exact ⟨fun c hc => by simpa [h2] using hlt c hc, (wf_tail hm).1⟩
        · exact ⟨hlt, (wf_tail hm).1⟩
        · refine ⟨fun c hc => ?_, hlt, (wf_tail hm).1⟩
          have had : a < d.1 := by omega
          rcases List.mem_cons.1 hc with rfl | hc
          · exact had
          · exact lt_trans had (hlt c hc)
  · rcases mem_write hc with hc | ⟨rfl, hb⟩
    · exact hm.2 c hc
    · exact ⟨ha, hb⟩

/-- Writing bytes inside the address space keeps the canonical form. -/
theorem wf_writeBytes {m : Memory} (hm : Memory.wf m) {a : Nat} (bs : List Byte)
    (h : a + bs.length ≤ Config.memSize) : Memory.wf (writeBytes m a bs) := by
  induction bs generalizing m a with
  | nil => exact hm
  | cons b bs ih =>
    simp only [List.length_cons] at h
    exact ih (wf_write hm b (by simp at h ⊢; omega)) (by simp at h ⊢; omega)

/-- Bytes outside the written ones read as before. -/
theorem read_writeBytes_out (m : Memory) (a : Nat) (bs : List Byte) {a' : Nat}
    (h : ¬ (a ≤ a' ∧ a' < a + bs.length)) : read (writeBytes m a bs) a' = read m a' := by
  induction bs generalizing m a with
  | nil => rfl
  | cons b bs ih =>
    simp only [List.length_cons] at h
    rw [writeBytes, ih _ _ (by omega), read_write_ne _ _ (by omega)]

/-- The written bytes read back. -/
theorem read_writeBytes_in {m : Memory} (hm : Memory.wf m) {a : Nat} {bs : List Byte}
    (h : a + bs.length ≤ Config.memSize) {k : Nat} (hk : k < bs.length) :
    read (writeBytes m a bs) (a + k) = bs[k] := by
  induction bs generalizing m a k with
  | nil => simp at hk
  | cons b bs ih =>
    simp only [List.length_cons] at h hk
    have hw : Memory.wf (write m a b) := wf_write hm b (by simp at h ⊢; omega)
    cases k with
    | zero =>
      rw [writeBytes, read_writeBytes_out _ _ _ (by omega)]
      simpa using read_write_self hm a b
    | succ k =>
      have := ih hw (a := a + 1) (by omega) (k := k) (by omega)
      rw [writeBytes, show a + (k + 1) = a + 1 + k by omega, this]
      rfl

@[simp] theorem length_readBytes (m : Memory) (a n : Nat) : (readBytes m a n).length = n := by
  simp [readBytes]

theorem getElem_readBytes (m : Memory) (a n k : Nat) (hk : k < (readBytes m a n).length) :
    (readBytes m a n)[k] = read m (a + k) := by
  simp [readBytes]

end Sys2Proof.Machine.Memory
end

