-- ==== Sys2Proof/Laws/State.lean ====
section
/-! SUPPORT. What each update of State leaves in each field: one lemma per field per update, so that no
proof unfolds a record update. -/

namespace Sys2Proof.Machine.State

variable (s : State)

@[simp] theorem setV_v (r : Nibble) (b : Byte) : (s.setV r b).v = s.v.set r b := rfl
@[simp] theorem setV_i (r : Nibble) (b : Byte) : (s.setV r b).i = s.i := rfl
@[simp] theorem setV_pc (r : Nibble) (b : Byte) : (s.setV r b).pc = s.pc := rfl
@[simp] theorem setV_sp (r : Nibble) (b : Byte) : (s.setV r b).sp = s.sp := rfl
@[simp] theorem setV_stack (r : Nibble) (b : Byte) : (s.setV r b).stack = s.stack := rfl
@[simp] theorem setV_dt (r : Nibble) (b : Byte) : (s.setV r b).dt = s.dt := rfl
@[simp] theorem setV_st (r : Nibble) (b : Byte) : (s.setV r b).st = s.st := rfl
@[simp] theorem setV_mem (r : Nibble) (b : Byte) : (s.setV r b).mem = s.mem := rfl
@[simp] theorem setV_fb (r : Nibble) (b : Byte) : (s.setV r b).fb = s.fb := rfl
@[simp] theorem setV_keys (r : Nibble) (b : Byte) : (s.setV r b).keys = s.keys := rfl
@[simp] theorem setV_wait (r : Nibble) (b : Byte) : (s.setV r b).wait = s.wait := rfl
@[simp] theorem setV_status (r : Nibble) (b : Byte) : (s.setV r b).status = s.status := rfl
@[simp] theorem setV_params (r : Nibble) (b : Byte) : (s.setV r b).params = s.params := rfl
@[simp] theorem setV_hostEvents (r : Nibble) (b : Byte) : (s.setV r b).hostEvents = s.hostEvents := rfl
@[simp] theorem setV_rndFeed (r : Nibble) (b : Byte) : (s.setV r b).rndFeed = s.rndFeed := rfl
@[simp] theorem setV_rndDraws (r : Nibble) (b : Byte) : (s.setV r b).rndDraws = s.rndDraws := rfl

@[simp] theorem setRegs_v (u : Vector Byte 16) : (s.setRegs u).v = u := rfl
@[simp] theorem setRegs_i (u : Vector Byte 16) : (s.setRegs u).i = s.i := rfl
@[simp] theorem setRegs_pc (u : Vector Byte 16) : (s.setRegs u).pc = s.pc := rfl
@[simp] theorem setRegs_sp (u : Vector Byte 16) : (s.setRegs u).sp = s.sp := rfl
@[simp] theorem setRegs_stack (u : Vector Byte 16) : (s.setRegs u).stack = s.stack := rfl
@[simp] theorem setRegs_dt (u : Vector Byte 16) : (s.setRegs u).dt = s.dt := rfl
@[simp] theorem setRegs_st (u : Vector Byte 16) : (s.setRegs u).st = s.st := rfl
@[simp] theorem setRegs_mem (u : Vector Byte 16) : (s.setRegs u).mem = s.mem := rfl
@[simp] theorem setRegs_fb (u : Vector Byte 16) : (s.setRegs u).fb = s.fb := rfl
@[simp] theorem setRegs_keys (u : Vector Byte 16) : (s.setRegs u).keys = s.keys := rfl
@[simp] theorem setRegs_wait (u : Vector Byte 16) : (s.setRegs u).wait = s.wait := rfl
@[simp] theorem setRegs_status (u : Vector Byte 16) : (s.setRegs u).status = s.status := rfl
@[simp] theorem setRegs_params (u : Vector Byte 16) : (s.setRegs u).params = s.params := rfl
@[simp] theorem setRegs_hostEvents (u : Vector Byte 16) : (s.setRegs u).hostEvents = s.hostEvents := rfl
@[simp] theorem setRegs_rndFeed (u : Vector Byte 16) : (s.setRegs u).rndFeed = s.rndFeed := rfl
@[simp] theorem setRegs_rndDraws (u : Vector Byte 16) : (s.setRegs u).rndDraws = s.rndDraws := rfl

@[simp] theorem setI_v (w : Word) : (s.setI w).v = s.v := rfl
@[simp] theorem setI_i (w : Word) : (s.setI w).i = w := rfl
@[simp] theorem setI_pc (w : Word) : (s.setI w).pc = s.pc := rfl
@[simp] theorem setI_sp (w : Word) : (s.setI w).sp = s.sp := rfl
@[simp] theorem setI_stack (w : Word) : (s.setI w).stack = s.stack := rfl
@[simp] theorem setI_dt (w : Word) : (s.setI w).dt = s.dt := rfl
@[simp] theorem setI_st (w : Word) : (s.setI w).st = s.st := rfl
@[simp] theorem setI_mem (w : Word) : (s.setI w).mem = s.mem := rfl
@[simp] theorem setI_fb (w : Word) : (s.setI w).fb = s.fb := rfl
@[simp] theorem setI_keys (w : Word) : (s.setI w).keys = s.keys := rfl
@[simp] theorem setI_wait (w : Word) : (s.setI w).wait = s.wait := rfl
@[simp] theorem setI_status (w : Word) : (s.setI w).status = s.status := rfl
@[simp] theorem setI_params (w : Word) : (s.setI w).params = s.params := rfl
@[simp] theorem setI_hostEvents (w : Word) : (s.setI w).hostEvents = s.hostEvents := rfl
@[simp] theorem setI_rndFeed (w : Word) : (s.setI w).rndFeed = s.rndFeed := rfl
@[simp] theorem setI_rndDraws (w : Word) : (s.setI w).rndDraws = s.rndDraws := rfl

@[simp] theorem setPc_v (w : Word) : (s.setPc w).v = s.v := rfl
@[simp] theorem setPc_i (w : Word) : (s.setPc w).i = s.i := rfl
@[simp] theorem setPc_pc (w : Word) : (s.setPc w).pc = w := rfl
@[simp] theorem setPc_sp (w : Word) : (s.setPc w).sp = s.sp := rfl
@[simp] theorem setPc_stack (w : Word) : (s.setPc w).stack = s.stack := rfl
@[simp] theorem setPc_dt (w : Word) : (s.setPc w).dt = s.dt := rfl
@[simp] theorem setPc_st (w : Word) : (s.setPc w).st = s.st := rfl
@[simp] theorem setPc_mem (w : Word) : (s.setPc w).mem = s.mem := rfl
@[simp] theorem setPc_fb (w : Word) : (s.setPc w).fb = s.fb := rfl
@[simp] theorem setPc_keys (w : Word) : (s.setPc w).keys = s.keys := rfl
@[simp] theorem setPc_wait (w : Word) : (s.setPc w).wait = s.wait := rfl
@[simp] theorem setPc_status (w : Word) : (s.setPc w).status = s.status := rfl
@[simp] theorem setPc_params (w : Word) : (s.setPc w).params = s.params := rfl
@[simp] theorem setPc_hostEvents (w : Word) : (s.setPc w).hostEvents = s.hostEvents := rfl
@[simp] theorem setPc_rndFeed (w : Word) : (s.setPc w).rndFeed = s.rndFeed := rfl
@[simp] theorem setPc_rndDraws (w : Word) : (s.setPc w).rndDraws = s.rndDraws := rfl

@[simp] theorem setStack_v (p : Byte) (k : Vector Word 16) : (s.setStack p k).v = s.v := rfl
@[simp] theorem setStack_i (p : Byte) (k : Vector Word 16) : (s.setStack p k).i = s.i := rfl
@[simp] theorem setStack_pc (p : Byte) (k : Vector Word 16) : (s.setStack p k).pc = s.pc := rfl
@[simp] theorem setStack_sp (p : Byte) (k : Vector Word 16) : (s.setStack p k).sp = p := rfl
@[simp] theorem setStack_stack (p : Byte) (k : Vector Word 16) : (s.setStack p k).stack = k := rfl
@[simp] theorem setStack_dt (p : Byte) (k : Vector Word 16) : (s.setStack p k).dt = s.dt := rfl
@[simp] theorem setStack_st (p : Byte) (k : Vector Word 16) : (s.setStack p k).st = s.st := rfl
@[simp] theorem setStack_mem (p : Byte) (k : Vector Word 16) : (s.setStack p k).mem = s.mem := rfl
@[simp] theorem setStack_fb (p : Byte) (k : Vector Word 16) : (s.setStack p k).fb = s.fb := rfl
@[simp] theorem setStack_keys (p : Byte) (k : Vector Word 16) : (s.setStack p k).keys = s.keys := rfl
@[simp] theorem setStack_wait (p : Byte) (k : Vector Word 16) : (s.setStack p k).wait = s.wait := rfl
@[simp] theorem setStack_status (p : Byte) (k : Vector Word 16) : (s.setStack p k).status = s.status := rfl
@[simp] theorem setStack_params (p : Byte) (k : Vector Word 16) : (s.setStack p k).params = s.params := rfl
@[simp] theorem setStack_hostEvents (p : Byte) (k : Vector Word 16) : (s.setStack p k).hostEvents = s.hostEvents := rfl
@[simp] theorem setStack_rndFeed (p : Byte) (k : Vector Word 16) : (s.setStack p k).rndFeed = s.rndFeed := rfl
@[simp] theorem setStack_rndDraws (p : Byte) (k : Vector Word 16) : (s.setStack p k).rndDraws = s.rndDraws := rfl

@[simp] theorem setDt_v (b : Byte) : (s.setDt b).v = s.v := rfl
@[simp] theorem setDt_i (b : Byte) : (s.setDt b).i = s.i := rfl
@[simp] theorem setDt_pc (b : Byte) : (s.setDt b).pc = s.pc := rfl
@[simp] theorem setDt_sp (b : Byte) : (s.setDt b).sp = s.sp := rfl
@[simp] theorem setDt_stack (b : Byte) : (s.setDt b).stack = s.stack := rfl
@[simp] theorem setDt_dt (b : Byte) : (s.setDt b).dt = b := rfl
@[simp] theorem setDt_st (b : Byte) : (s.setDt b).st = s.st := rfl
@[simp] theorem setDt_mem (b : Byte) : (s.setDt b).mem = s.mem := rfl
@[simp] theorem setDt_fb (b : Byte) : (s.setDt b).fb = s.fb := rfl
@[simp] theorem setDt_keys (b : Byte) : (s.setDt b).keys = s.keys := rfl
@[simp] theorem setDt_wait (b : Byte) : (s.setDt b).wait = s.wait := rfl
@[simp] theorem setDt_status (b : Byte) : (s.setDt b).status = s.status := rfl
@[simp] theorem setDt_params (b : Byte) : (s.setDt b).params = s.params := rfl
@[simp] theorem setDt_hostEvents (b : Byte) : (s.setDt b).hostEvents = s.hostEvents := rfl
@[simp] theorem setDt_rndFeed (b : Byte) : (s.setDt b).rndFeed = s.rndFeed := rfl
@[simp] theorem setDt_rndDraws (b : Byte) : (s.setDt b).rndDraws = s.rndDraws := rfl

@[simp] theorem setSt_v (b : Byte) : (s.setSt b).v = s.v := rfl
@[simp] theorem setSt_i (b : Byte) : (s.setSt b).i = s.i := rfl
@[simp] theorem setSt_pc (b : Byte) : (s.setSt b).pc = s.pc := rfl
@[simp] theorem setSt_sp (b : Byte) : (s.setSt b).sp = s.sp := rfl
@[simp] theorem setSt_stack (b : Byte) : (s.setSt b).stack = s.stack := rfl
@[simp] theorem setSt_dt (b : Byte) : (s.setSt b).dt = s.dt := rfl
@[simp] theorem setSt_st (b : Byte) : (s.setSt b).st = b := rfl
@[simp] theorem setSt_mem (b : Byte) : (s.setSt b).mem = s.mem := rfl
@[simp] theorem setSt_fb (b : Byte) : (s.setSt b).fb = s.fb := rfl
@[simp] theorem setSt_keys (b : Byte) : (s.setSt b).keys = s.keys := rfl
@[simp] theorem setSt_wait (b : Byte) : (s.setSt b).wait = s.wait := rfl
@[simp] theorem setSt_status (b : Byte) : (s.setSt b).status = s.status := rfl
@[simp] theorem setSt_params (b : Byte) : (s.setSt b).params = s.params := rfl
@[simp] theorem setSt_hostEvents (b : Byte) : (s.setSt b).hostEvents = s.hostEvents := rfl
@[simp] theorem setSt_rndFeed (b : Byte) : (s.setSt b).rndFeed = s.rndFeed := rfl
@[simp] theorem setSt_rndDraws (b : Byte) : (s.setSt b).rndDraws = s.rndDraws := rfl

@[simp] theorem setMem_v (m : Memory) : (s.setMem m).v = s.v := rfl
@[simp] theorem setMem_i (m : Memory) : (s.setMem m).i = s.i := rfl
@[simp] theorem setMem_pc (m : Memory) : (s.setMem m).pc = s.pc := rfl
@[simp] theorem setMem_sp (m : Memory) : (s.setMem m).sp = s.sp := rfl
@[simp] theorem setMem_stack (m : Memory) : (s.setMem m).stack = s.stack := rfl
@[simp] theorem setMem_dt (m : Memory) : (s.setMem m).dt = s.dt := rfl
@[simp] theorem setMem_st (m : Memory) : (s.setMem m).st = s.st := rfl
@[simp] theorem setMem_mem (m : Memory) : (s.setMem m).mem = m := rfl
@[simp] theorem setMem_fb (m : Memory) : (s.setMem m).fb = s.fb := rfl
@[simp] theorem setMem_keys (m : Memory) : (s.setMem m).keys = s.keys := rfl
@[simp] theorem setMem_wait (m : Memory) : (s.setMem m).wait = s.wait := rfl
@[simp] theorem setMem_status (m : Memory) : (s.setMem m).status = s.status := rfl
@[simp] theorem setMem_params (m : Memory) : (s.setMem m).params = s.params := rfl
@[simp] theorem setMem_hostEvents (m : Memory) : (s.setMem m).hostEvents = s.hostEvents := rfl
@[simp] theorem setMem_rndFeed (m : Memory) : (s.setMem m).rndFeed = s.rndFeed := rfl
@[simp] theorem setMem_rndDraws (m : Memory) : (s.setMem m).rndDraws = s.rndDraws := rfl

@[simp] theorem setFb_v (d : Display) : (s.setFb d).v = s.v := rfl
@[simp] theorem setFb_i (d : Display) : (s.setFb d).i = s.i := rfl
@[simp] theorem setFb_pc (d : Display) : (s.setFb d).pc = s.pc := rfl
@[simp] theorem setFb_sp (d : Display) : (s.setFb d).sp = s.sp := rfl
@[simp] theorem setFb_stack (d : Display) : (s.setFb d).stack = s.stack := rfl
@[simp] theorem setFb_dt (d : Display) : (s.setFb d).dt = s.dt := rfl
@[simp] theorem setFb_st (d : Display) : (s.setFb d).st = s.st := rfl
@[simp] theorem setFb_mem (d : Display) : (s.setFb d).mem = s.mem := rfl
@[simp] theorem setFb_fb (d : Display) : (s.setFb d).fb = d := rfl
@[simp] theorem setFb_keys (d : Display) : (s.setFb d).keys = s.keys := rfl
@[simp] theorem setFb_wait (d : Display) : (s.setFb d).wait = s.wait := rfl
@[simp] theorem setFb_status (d : Display) : (s.setFb d).status = s.status := rfl
@[simp] theorem setFb_params (d : Display) : (s.setFb d).params = s.params := rfl
@[simp] theorem setFb_hostEvents (d : Display) : (s.setFb d).hostEvents = s.hostEvents := rfl
@[simp] theorem setFb_rndFeed (d : Display) : (s.setFb d).rndFeed = s.rndFeed := rfl
@[simp] theorem setFb_rndDraws (d : Display) : (s.setFb d).rndDraws = s.rndDraws := rfl

@[simp] theorem setKeys_v (k : Keys) : (s.setKeys k).v = s.v := rfl
@[simp] theorem setKeys_i (k : Keys) : (s.setKeys k).i = s.i := rfl
@[simp] theorem setKeys_pc (k : Keys) : (s.setKeys k).pc = s.pc := rfl
@[simp] theorem setKeys_sp (k : Keys) : (s.setKeys k).sp = s.sp := rfl
@[simp] theorem setKeys_stack (k : Keys) : (s.setKeys k).stack = s.stack := rfl
@[simp] theorem setKeys_dt (k : Keys) : (s.setKeys k).dt = s.dt := rfl
@[simp] theorem setKeys_st (k : Keys) : (s.setKeys k).st = s.st := rfl
@[simp] theorem setKeys_mem (k : Keys) : (s.setKeys k).mem = s.mem := rfl
@[simp] theorem setKeys_fb (k : Keys) : (s.setKeys k).fb = s.fb := rfl
@[simp] theorem setKeys_keys (k : Keys) : (s.setKeys k).keys = k := rfl
@[simp] theorem setKeys_wait (k : Keys) : (s.setKeys k).wait = s.wait := rfl
@[simp] theorem setKeys_status (k : Keys) : (s.setKeys k).status = s.status := rfl
@[simp] theorem setKeys_params (k : Keys) : (s.setKeys k).params = s.params := rfl
@[simp] theorem setKeys_hostEvents (k : Keys) : (s.setKeys k).hostEvents = s.hostEvents := rfl
@[simp] theorem setKeys_rndFeed (k : Keys) : (s.setKeys k).rndFeed = s.rndFeed := rfl
@[simp] theorem setKeys_rndDraws (k : Keys) : (s.setKeys k).rndDraws = s.rndDraws := rfl

@[simp] theorem setWait_v (w : Option Nibble) : (s.setWait w).v = s.v := rfl
@[simp] theorem setWait_i (w : Option Nibble) : (s.setWait w).i = s.i := rfl
@[simp] theorem setWait_pc (w : Option Nibble) : (s.setWait w).pc = s.pc := rfl
@[simp] theorem setWait_sp (w : Option Nibble) : (s.setWait w).sp = s.sp := rfl
@[simp] theorem setWait_stack (w : Option Nibble) : (s.setWait w).stack = s.stack := rfl
@[simp] theorem setWait_dt (w : Option Nibble) : (s.setWait w).dt = s.dt := rfl
@[simp] theorem setWait_st (w : Option Nibble) : (s.setWait w).st = s.st := rfl
@[simp] theorem setWait_mem (w : Option Nibble) : (s.setWait w).mem = s.mem := rfl
@[simp] theorem setWait_fb (w : Option Nibble) : (s.setWait w).fb = s.fb := rfl
@[simp] theorem setWait_keys (w : Option Nibble) : (s.setWait w).keys = s.keys := rfl
@[simp] theorem setWait_wait (w : Option Nibble) : (s.setWait w).wait = w := rfl
@[simp] theorem setWait_status (w : Option Nibble) : (s.setWait w).status = s.status := rfl
@[simp] theorem setWait_params (w : Option Nibble) : (s.setWait w).params = s.params := rfl
@[simp] theorem setWait_hostEvents (w : Option Nibble) : (s.setWait w).hostEvents = s.hostEvents := rfl
@[simp] theorem setWait_rndFeed (w : Option Nibble) : (s.setWait w).rndFeed = s.rndFeed := rfl
@[simp] theorem setWait_rndDraws (w : Option Nibble) : (s.setWait w).rndDraws = s.rndDraws := rfl

@[simp] theorem setStatus_v (t : Status) : (s.setStatus t).v = s.v := rfl
@[simp] theorem setStatus_i (t : Status) : (s.setStatus t).i = s.i := rfl
@[simp] theorem setStatus_pc (t : Status) : (s.setStatus t).pc = s.pc := rfl
@[simp] theorem setStatus_sp (t : Status) : (s.setStatus t).sp = s.sp := rfl
@[simp] theorem setStatus_stack (t : Status) : (s.setStatus t).stack = s.stack := rfl
@[simp] theorem setStatus_dt (t : Status) : (s.setStatus t).dt = s.dt := rfl
@[simp] theorem setStatus_st (t : Status) : (s.setStatus t).st = s.st := rfl
@[simp] theorem setStatus_mem (t : Status) : (s.setStatus t).mem = s.mem := rfl
@[simp] theorem setStatus_fb (t : Status) : (s.setStatus t).fb = s.fb := rfl
@[simp] theorem setStatus_keys (t : Status) : (s.setStatus t).keys = s.keys := rfl
@[simp] theorem setStatus_wait (t : Status) : (s.setStatus t).wait = s.wait := rfl
@[simp] theorem setStatus_status (t : Status) : (s.setStatus t).status = t := rfl
@[simp] theorem setStatus_params (t : Status) : (s.setStatus t).params = s.params := rfl
@[simp] theorem setStatus_hostEvents (t : Status) : (s.setStatus t).hostEvents = s.hostEvents := rfl
@[simp] theorem setStatus_rndFeed (t : Status) : (s.setStatus t).rndFeed = s.rndFeed := rfl
@[simp] theorem setStatus_rndDraws (t : Status) : (s.setStatus t).rndDraws = s.rndDraws := rfl

@[simp] theorem setHostEvents_v (es : List HostEvent) : (s.setHostEvents es).v = s.v := rfl
@[simp] theorem setHostEvents_i (es : List HostEvent) : (s.setHostEvents es).i = s.i := rfl
@[simp] theorem setHostEvents_pc (es : List HostEvent) : (s.setHostEvents es).pc = s.pc := rfl
@[simp] theorem setHostEvents_sp (es : List HostEvent) : (s.setHostEvents es).sp = s.sp := rfl
@[simp] theorem setHostEvents_stack (es : List HostEvent) : (s.setHostEvents es).stack = s.stack := rfl
@[simp] theorem setHostEvents_dt (es : List HostEvent) : (s.setHostEvents es).dt = s.dt := rfl
@[simp] theorem setHostEvents_st (es : List HostEvent) : (s.setHostEvents es).st = s.st := rfl
@[simp] theorem setHostEvents_mem (es : List HostEvent) : (s.setHostEvents es).mem = s.mem := rfl
@[simp] theorem setHostEvents_fb (es : List HostEvent) : (s.setHostEvents es).fb = s.fb := rfl
@[simp] theorem setHostEvents_keys (es : List HostEvent) : (s.setHostEvents es).keys = s.keys := rfl
@[simp] theorem setHostEvents_wait (es : List HostEvent) : (s.setHostEvents es).wait = s.wait := rfl
@[simp] theorem setHostEvents_status (es : List HostEvent) : (s.setHostEvents es).status = s.status := rfl
@[simp] theorem setHostEvents_params (es : List HostEvent) : (s.setHostEvents es).params = s.params := rfl
@[simp] theorem setHostEvents_hostEvents (es : List HostEvent) : (s.setHostEvents es).hostEvents = es := rfl
@[simp] theorem setHostEvents_rndFeed (es : List HostEvent) : (s.setHostEvents es).rndFeed = s.rndFeed := rfl
@[simp] theorem setHostEvents_rndDraws (es : List HostEvent) : (s.setHostEvents es).rndDraws = s.rndDraws := rfl

@[simp] theorem consumeRandom_v : (s.consumeRandom).v = s.v := rfl
@[simp] theorem consumeRandom_i : (s.consumeRandom).i = s.i := rfl
@[simp] theorem consumeRandom_pc : (s.consumeRandom).pc = s.pc := rfl
@[simp] theorem consumeRandom_sp : (s.consumeRandom).sp = s.sp := rfl
@[simp] theorem consumeRandom_stack : (s.consumeRandom).stack = s.stack := rfl
@[simp] theorem consumeRandom_dt : (s.consumeRandom).dt = s.dt := rfl
@[simp] theorem consumeRandom_st : (s.consumeRandom).st = s.st := rfl
@[simp] theorem consumeRandom_mem : (s.consumeRandom).mem = s.mem := rfl
@[simp] theorem consumeRandom_fb : (s.consumeRandom).fb = s.fb := rfl
@[simp] theorem consumeRandom_keys : (s.consumeRandom).keys = s.keys := rfl
@[simp] theorem consumeRandom_wait : (s.consumeRandom).wait = s.wait := rfl
@[simp] theorem consumeRandom_status : (s.consumeRandom).status = s.status := rfl
@[simp] theorem consumeRandom_params : (s.consumeRandom).params = s.params := rfl
@[simp] theorem consumeRandom_hostEvents : (s.consumeRandom).hostEvents = s.hostEvents := rfl
@[simp] theorem consumeRandom_rndFeed : (s.consumeRandom).rndFeed = s.rndFeed.tail := rfl
@[simp] theorem consumeRandom_rndDraws : (s.consumeRandom).rndDraws = s.rndDraws + 1 := rfl

@[simp] theorem advance_v : (s.advance).v = s.v := rfl
@[simp] theorem advance_i : (s.advance).i = s.i := rfl
@[simp] theorem advance_pc : (s.advance).pc = s.pc + 2#16 := rfl
@[simp] theorem advance_sp : (s.advance).sp = s.sp := rfl
@[simp] theorem advance_stack : (s.advance).stack = s.stack := rfl
@[simp] theorem advance_dt : (s.advance).dt = s.dt := rfl
@[simp] theorem advance_st : (s.advance).st = s.st := rfl
@[simp] theorem advance_mem : (s.advance).mem = s.mem := rfl
@[simp] theorem advance_fb : (s.advance).fb = s.fb := rfl
@[simp] theorem advance_keys : (s.advance).keys = s.keys := rfl
@[simp] theorem advance_wait : (s.advance).wait = s.wait := rfl
@[simp] theorem advance_status : (s.advance).status = s.status := rfl
@[simp] theorem advance_params : (s.advance).params = s.params := rfl
@[simp] theorem advance_hostEvents : (s.advance).hostEvents = s.hostEvents := rfl
@[simp] theorem advance_rndFeed : (s.advance).rndFeed = s.rndFeed := rfl
@[simp] theorem advance_rndDraws : (s.advance).rndDraws = s.rndDraws := rfl

/-! ## The registers, bytes and pixels of an updated state -/

@[simp] theorem reg_setV (r k : Nibble) (b : Byte) :
    (s.setV r b).reg k = if k = r then b else s.reg k := by
  simp [reg, setV, Vector.getElem_set, Fin.ext_iff, eq_comm]

@[simp] theorem byte_setV (a : Nat) (r : Nibble) (b : Byte) : (s.setV r b).byte a = s.byte a := rfl
@[simp] theorem pixel_setV (y : Fin 32) (x : Fin 64) (r : Nibble) (b : Byte) :
    (s.setV r b).pixel y x = s.pixel y x := rfl
@[simp] theorem byte_setRegs (a : Nat) (u : Vector Byte 16) : (s.setRegs u).byte a = s.byte a := rfl
@[simp] theorem pixel_setRegs (y : Fin 32) (x : Fin 64) (u : Vector Byte 16) :
    (s.setRegs u).pixel y x = s.pixel y x := rfl
@[simp] theorem reg_setI (q : Nibble) (w : Word) : (s.setI w).reg q = s.reg q := rfl
@[simp] theorem byte_setI (a : Nat) (w : Word) : (s.setI w).byte a = s.byte a := rfl
@[simp] theorem pixel_setI (y : Fin 32) (x : Fin 64) (w : Word) :
    (s.setI w).pixel y x = s.pixel y x := rfl
@[simp] theorem reg_setPc (q : Nibble) (w : Word) : (s.setPc w).reg q = s.reg q := rfl
@[simp] theorem byte_setPc (a : Nat) (w : Word) : (s.setPc w).byte a = s.byte a := rfl
@[simp] theorem pixel_setPc (y : Fin 32) (x : Fin 64) (w : Word) :
    (s.setPc w).pixel y x = s.pixel y x := rfl
@[simp] theorem reg_setStack (q : Nibble) (p : Byte) (k : Vector Word 16) : (s.setStack p k).reg q = s.reg q := rfl
@[simp] theorem byte_setStack (a : Nat) (p : Byte) (k : Vector Word 16) : (s.setStack p k).byte a = s.byte a := rfl
@[simp] theorem pixel_setStack (y : Fin 32) (x : Fin 64) (p : Byte) (k : Vector Word 16) :
    (s.setStack p k).pixel y x = s.pixel y x := rfl
@[simp] theorem reg_setDt (q : Nibble) (b : Byte) : (s.setDt b).reg q = s.reg q := rfl
@[simp] theorem byte_setDt (a : Nat) (b : Byte) : (s.setDt b).byte a = s.byte a := rfl
@[simp] theorem pixel_setDt (y : Fin 32) (x : Fin 64) (b : Byte) :
    (s.setDt b).pixel y x = s.pixel y x := rfl
@[simp] theorem reg_setSt (q : Nibble) (b : Byte) : (s.setSt b).reg q = s.reg q := rfl
@[simp] theorem byte_setSt (a : Nat) (b : Byte) : (s.setSt b).byte a = s.byte a := rfl
@[simp] theorem pixel_setSt (y : Fin 32) (x : Fin 64) (b : Byte) :
    (s.setSt b).pixel y x = s.pixel y x := rfl
@[simp] theorem reg_setMem (q : Nibble) (m : Memory) : (s.setMem m).reg q = s.reg q := rfl
@[simp] theorem pixel_setMem (y : Fin 32) (x : Fin 64) (m : Memory) :
    (s.setMem m).pixel y x = s.pixel y x := rfl
@[simp] theorem reg_setFb (q : Nibble) (d : Display) : (s.setFb d).reg q = s.reg q := rfl
@[simp] theorem byte_setFb (a : Nat) (d : Display) : (s.setFb d).byte a = s.byte a := rfl
@[simp] theorem reg_setKeys (q : Nibble) (k : Keys) : (s.setKeys k).reg q = s.reg q := rfl
@[simp] theorem byte_setKeys (a : Nat) (k : Keys) : (s.setKeys k).byte a = s.byte a := rfl
@[simp] theorem pixel_setKeys (y : Fin 32) (x : Fin 64) (k : Keys) :
    (s.setKeys k).pixel y x = s.pixel y x := rfl
@[simp] theorem reg_setWait (q : Nibble) (w : Option Nibble) : (s.setWait w).reg q = s.reg q := rfl
@[simp] theorem byte_setWait (a : Nat) (w : Option Nibble) : (s.setWait w).byte a = s.byte a := rfl
@[simp] theorem pixel_setWait (y : Fin 32) (x : Fin 64) (w : Option Nibble) :
    (s.setWait w).pixel y x = s.pixel y x := rfl
@[simp] theorem reg_setStatus (q : Nibble) (t : Status) : (s.setStatus t).reg q = s.reg q := rfl
@[simp] theorem byte_setStatus (a : Nat) (t : Status) : (s.setStatus t).byte a = s.byte a := rfl
@[simp] theorem pixel_setStatus (y : Fin 32) (x : Fin 64) (t : Status) :
    (s.setStatus t).pixel y x = s.pixel y x := rfl
@[simp] theorem reg_setHostEvents (q : Nibble) (es : List HostEvent) : (s.setHostEvents es).reg q = s.reg q := rfl
@[simp] theorem byte_setHostEvents (a : Nat) (es : List HostEvent) : (s.setHostEvents es).byte a = s.byte a := rfl
@[simp] theorem pixel_setHostEvents (y : Fin 32) (x : Fin 64) (es : List HostEvent) :
    (s.setHostEvents es).pixel y x = s.pixel y x := rfl
@[simp] theorem reg_consumeRandom (q : Nibble) : (s.consumeRandom).reg q = s.reg q := rfl
@[simp] theorem byte_consumeRandom (a : Nat) : (s.consumeRandom).byte a = s.byte a := rfl
@[simp] theorem pixel_consumeRandom (y : Fin 32) (x : Fin 64) :
    (s.consumeRandom).pixel y x = s.pixel y x := rfl
@[simp] theorem reg_advance (q : Nibble) : (s.advance).reg q = s.reg q := rfl
@[simp] theorem byte_advance (a : Nat) : (s.advance).byte a = s.byte a := rfl
@[simp] theorem pixel_advance (y : Fin 32) (x : Fin 64) :
    (s.advance).pixel y x = s.pixel y x := rfl

@[simp] theorem reg_setRegs (k : Nibble) (u : Vector Byte 16) : (s.setRegs u).reg k = u[k] := rfl
@[simp] theorem byte_setMem (a : Nat) (m : Memory) : (s.setMem m).byte a = m.read a := rfl
@[simp] theorem pixel_setFb (y : Fin 32) (x : Fin 64) (d : Display) :
    (s.setFb d).pixel y x = d[y][x] := rfl

/-- A state is its 16 registers and its other fields: two states that agree on all of them are equal. -/
theorem v_ext {s t : State} (h : ∀ r, t.reg r = s.reg r) : t.v = s.v := by
  apply Vector.ext
  intro k hk
  exact h ⟨k, hk⟩

end Sys2Proof.Machine.State
end

