-- ==== Sys2Proof/Laws/Ops.lean ====
section
/-! SUPPORT. What each shared operation can do, said once: later proofs cite these and do not unfold
the operations. -/

namespace Sys2Proof.Machine

/-! ## Range checks (R54) -/

theorem checkRange_eq_none {a : Word} {n : Nat} :
    checkRange a n = none ↔ n = 0 ∨ a.toNat + n ≤ 4096 := by
  unfold checkRange
  split <;> rename_i h
  · simpa using h
  · split <;> simp_all

theorem checkRange_eq_some {a b : Word} {n : Nat} :
    checkRange a n = some b ↔
      n ≠ 0 ∧ 4096 < a.toNat + n ∧ b.toNat = if 4096 ≤ a.toNat then a.toNat else 4096 := by
  unfold checkRange
  split <;> rename_i h
  · simp only [reduceCtorEq, false_iff, not_and]
    simp only [Config.memSize] at h
    intro h0 h1
    omega
  · simp only [Config.memSize, not_or, not_le] at h
    split <;> rename_i h'
    · simp only [Config.memSize] at h'
      simp only [Option.some.injEq, h.1, h.2, ne_eq, not_false_eq_true, true_and]
      rw [← BitVec.toNat_inj, eq_comm]
    · simp only [Config.memSize] at h'
      simp only [Option.some.injEq, h.1, h.2, ne_eq, not_false_eq_true, true_and]
      rw [← BitVec.toNat_inj, eq_comm]
      simp

theorem touchesFont_eq_true {a n : Nat} :
    touchesFont a n = true ↔ ∃ k, k < n ∧ inFont (a + k) = true := by
  simp [touchesFont]

theorem touchesFont_eq_false {a n : Nat} :
    touchesFont a n = false ↔ ∀ k, k < n → inFont (a + k) = false := by
  simp [touchesFont]

/-! ## Raising (R181) -/

theorem raise_eq_next {e : HaltError} {s t : State} :
    raise e s = .next t ↔ t = s.setStatus (.halted e) := by
  simp [raise, eq_comm]

/-! ## The store and the load through `I` (R53, R54, R133 to R135) -/

/-- The three outcomes of a store: an error, a refusal, or all bytes written. -/
theorem storeAtI_cases (bs : List Byte) (s : State) :
    (∃ a, checkRange s.i bs.length = some a ∧
      storeAtI bs s = .next (s.setStatus (.halted (.memoryOutOfBounds a)))) ∨
    (checkRange s.i bs.length = none ∧ s.params.fontWrite = .refuse ∧
      touchesFont s.i.toNat bs.length = true ∧ storeAtI bs s = .refused (.fontStore s.i)) ∨
    (checkRange s.i bs.length = none ∧
      (s.params.fontWrite = .allow ∨ touchesFont s.i.toNat bs.length = false) ∧
      storeAtI bs s = .next (s.setMem (Memory.writeBytes s.mem s.i.toNat bs)).advance) := by
  unfold storeAtI
  cases hc : checkRange s.i bs.length with
  | some a => exact .inl ⟨a, rfl, rfl⟩
  | none =>
    cases hf : touchesFont s.i.toNat bs.length <;> cases hp : s.params.fontWrite <;> simp

/-- Where a store completes: in range, and no target cell in a font that refuses stores. -/
theorem storeAtI_completes {bs : List Byte} {s : State} (h : s.i.toNat + bs.length ≤ 4096)
    (hf : s.params.fontWrite = .allow ∨ ∀ k, k < bs.length → inFont (s.i.toNat + k) = false) :
    storeAtI bs s = .next (s.setMem (Memory.writeBytes s.mem s.i.toNat bs)).advance := by
  rcases storeAtI_cases bs s with ⟨a, hc, -⟩ | ⟨-, hp, ht, -⟩ | ⟨-, -, h⟩
  · have := (checkRange_eq_some.1 hc).2.1; omega
  · rcases hf with hf | hf
    · rw [hf] at hp; cases hp
    · rw [touchesFont_eq_false.2 hf] at ht; cases ht
  · exact h

@[simp] theorem length_bcdDigits (b : Byte) : (bcdDigits b).length = 3 := rfl

@[simp] theorem length_regsThrough (x : Nibble) (s : State) :
    (regsThrough x s).length = x.val + 1 := by
  simp [regsThrough]

theorem getElem_regsThrough (x : Nibble) (s : State) (r : Nibble)
    (h : r.val < (regsThrough x s).length) : (regsThrough x s)[r.val] = s.reg r := by
  simp only [regsThrough, List.getElem_ofFn]

@[simp] theorem length_spriteRows (n : Nibble) (s : State) : (spriteRows n s).length = n.val := by
  simp [spriteRows]

theorem getElem_spriteRows (n : Nibble) (s : State) (k : Nat) (h : k < (spriteRows n s).length) :
    (spriteRows n s)[k] = s.byte (s.i.toNat + k) := by
  simp only [spriteRows, Memory.getElem_readBytes, State.byte]

theorem loadAtI_cases (n : Nat) (s : State) :
    (∃ a, checkRange s.i n = some a ∧
      loadAtI n s = .next (s.setStatus (.halted (.memoryOutOfBounds a)))) ∨
    (checkRange s.i n = none ∧ loadAtI n s = .next (s.setRegs (loadedRegs n s)).advance) := by
  unfold loadAtI
  cases hc : checkRange s.i n with
  | some a => exact .inl ⟨a, rfl, rfl⟩
  | none => exact .inr ⟨rfl, rfl⟩

theorem loadAtI_completes {n : Nat} {s : State} (h : n = 0 ∨ s.i.toNat + n ≤ 4096) :
    loadAtI n s = .next (s.setRegs (loadedRegs n s)).advance := by
  simp [loadAtI, checkRange_eq_none.2 h]

theorem loadedRegs_get (n : Nat) (s : State) (r : Nibble) :
    (loadedRegs n s)[r] = if r.val < n then s.byte (s.i.toNat + r.val) else s.reg r := by
  simp [loadedRegs]

/-! ## The call stack (R101, R102) -/

theorem callTo_push (target : Word) {s : State} (h : s.sp.toNat < 16) :
    callTo target s =
      .next ((s.setStack (s.sp + 1#8) (s.stack.set s.sp.toNat (s.pc + 2#16))).setPc target) := by
  simp [callTo, h]

theorem callTo_overflow (target : Word) {s : State} (h : s.sp.toNat = 16) :
    callTo target s = .next (s.setStatus (.halted .stackOverflow)) := by
  simp [callTo, h, raise]

theorem callTo_illegal (target : Word) {s : State} (h : 16 < s.sp.toNat) :
    callTo target s = .fault (.stackPointerIllegal s.sp) := by
  have h1 : ¬ s.sp.toNat < 16 := by omega
  have h2 : ¬ s.sp.toNat = 16 := by omega
  simp [callTo, h1, h2]

theorem returnFrom_pop {s : State} (h0 : 0 < s.sp.toNat) (h : s.sp.toNat ≤ 16) :
    returnFrom s =
      .next ((s.setStack (s.sp - 1#8) s.stack).setPc
        (s.stack[s.sp.toNat - 1]'(show s.sp.toNat - 1 < 16 by omega))) := by
  have h1 : s.sp ≠ 0#8 := by rintro h; simp [h] at h0
  have h2 : s.sp.toNat - 1 < 16 := by omega
  simp [returnFrom, h1, h2]

theorem returnFrom_underflow {s : State} (h : s.sp.toNat = 0) :
    returnFrom s = .next (s.setStatus (.halted .stackUnderflow)) := by
  have h1 : s.sp = 0#8 := BitVec.eq_of_toNat_eq (by simpa using h)
  simp [returnFrom, h1, raise]

theorem returnFrom_illegal {s : State} (h : 16 < s.sp.toNat) :
    returnFrom s = .fault (.stackPointerIllegal s.sp) := by
  have h1 : s.sp ≠ 0#8 := by rintro h'; simp [h'] at h
  have h2 : ¬ s.sp.toNat - 1 < 16 := by omega
  simp [returnFrom, h1, h2]

/-! ## Key and glyph numbers (R132, R160) -/

theorem digitOf_small (p : Config.HighDigitPolicy) {b : Byte} (h : b.toNat < 16) :
    digitOf p b = some ⟨b.toNat, h⟩ := by
  simp [digitOf, h]

theorem digitOf_eq_some {p : Config.HighDigitPolicy} {b : Byte} {d : Nibble} :
    digitOf p b = some d ↔ (b.toNat < 16 ∨ p = .mask) ∧ d.val = b.toNat % 16 := by
  unfold digitOf
  split <;> rename_i h
  · simp [h, Fin.ext_iff, Nat.mod_eq_of_lt h, eq_comm]
  · cases p <;> simp [h, Fin.ext_iff, eq_comm]

theorem digitOf_eq_none {p : Config.HighDigitPolicy} {b : Byte} :
    digitOf p b = none ↔ 16 ≤ b.toNat ∧ p = .refuse := by
  unfold digitOf
  split <;> rename_i h
  · simp; omega
  · cases p <;> simp; omega

/-! ## Registers of a result and flag pair (R122) -/

theorem reg_resultThenFlag (s : State) (x k : Nibble) (r : Byte) (f : Bool) :
    (((s.setV x r).setV vf (flagByte f)).advance).reg k =
      if k = vf then flagByte f else if k = x then r else s.reg k := by
  simp

@[simp] theorem flagByte_eq_one {f : Bool} : flagByte f = 1#8 ↔ f = true := by
  cases f <;> simp [flagByte]

@[simp] theorem flagByte_eq_zero {f : Bool} : flagByte f = 0#8 ↔ f = false := by
  cases f <;> simp [flagByte]

/-! ## Events -/

theorem countDown_toNat (b : Byte) : (countDown b).toNat = b.toNat - 1 := by
  unfold countDown
  split <;> rename_i h
  · simp [h]
  · have : b.toNat ≠ 0 := fun h0 => h (BitVec.eq_of_toNat_eq (by simpa using h0))
    rw [BitVec.toNat_sub_of_le (by rw [BitVec.le_def]; simp; omega)]
    simp

theorem newlyPressed_eq_none {old new : Keys} :
    newlyPressed old new = none ↔ ∀ k : Nibble, ¬ (new[k] = true ∧ old[k] = false) := by
  simp [newlyPressed, List.find?_eq_none]

/-- `min(newly)` of R164. -/
theorem newlyPressed_eq_some {old new : Keys} {k : Nibble} :
    newlyPressed old new = some k ↔
      (new[k] = true ∧ old[k] = false) ∧ ∀ j : Nibble, j < k → ¬ (new[j] = true ∧ old[j] = false) := by
  simp only [newlyPressed, List.find?_eq_some_iff_getElem, List.getElem_finRange, List.length_finRange,
    Bool.and_eq_true, Bool.not_eq_true', Bool.and_eq_false_imp, Bool.not_eq_false']
  constructor
  · rintro ⟨hp, i, hi, hik, hlow⟩
    refine ⟨hp, fun j hj hn => ?_⟩
    have := hlow j.val (by subst hik; simpa [Fin.lt_def] using hj)
    simp_all
  · rintro ⟨hp, hlow⟩
    refine ⟨hp, k.val, k.isLt, by simp, fun j hj => ?_⟩
    have := hlow ⟨j, by omega⟩ (by simpa [Fin.lt_def] using hj)
    simpa using this

/-- The outcomes of the `STEP` event of a running core that is not waiting (R70, R188). -/
theorem fetchDecodeExecute_cases (s : State) :
    (∃ a, checkRange s.pc 2 = some a ∧
      fetchDecodeExecute s = .next (s.setStatus (.halted (.memoryOutOfBounds a)))) ∨
    (checkRange s.pc 2 = none ∧ decodeWord s.fetchWord = none ∧
      fetchDecodeExecute s = .next (s.setStatus (.halted (.invalidOpcode s.fetchWord s.pc)))) ∨
    (∃ i, checkRange s.pc 2 = none ∧ decodeWord s.fetchWord = some i ∧
      fetchDecodeExecute s = exec i s) := by
  unfold fetchDecodeExecute
  cases hc : checkRange s.pc Config.instrBytes with
  | some a => exact .inl ⟨a, rfl, rfl⟩
  | none =>
    cases hd : decodeWord s.fetchWord with
    | none => exact .inr (.inl ⟨rfl, rfl, rfl⟩)
    | some i => exact .inr (.inr ⟨i, rfl, rfl, rfl⟩)

theorem stepEvent_halted {s : State} {e : HaltError} (h : s.status = .halted e) :
    stepEvent s = .next s := by
  simp [stepEvent, h]

theorem stepEvent_waiting {s : State} {x : Nibble} (h : s.wait = some x) : stepEvent s = .next s := by
  cases hs : s.status <;> simp [stepEvent, hs, h]

theorem stepEvent_running {s : State} (hs : s.status = .running) (hw : s.wait = none) :
    stepEvent s = fetchDecodeExecute s := by
  simp [stepEvent, hs, hw]

end Sys2Proof.Machine
end

