-- ==== Sys2Proof/Laws/PerInstr.lean ====
section
/-! SUPPORT. Per instruction: the word the encoder builds matches the instruction's own row of R78. -/

namespace Sys2Proof.Laws.EncodeMatchesRow

/-- `encode i & mask = match` for `i`'s row (R78). -/
def Statement (i : Instr) : Prop := encode i &&& (rowOf i).mask = (rowOf i).value

theorem of_F000 {c : Nat} {w v : Word} (h : fieldClass w = c) (hv : v.toNat = c * 4096) :
    w &&& 0xF000#16 = v :=
  BitVec.eq_of_toNat_eq (by rw [and_F000_toNat, h, hv])

theorem of_F00F {c n : Nat} {w v : Word} (h : fieldClass w = c) (hn : (fieldN w).val = n)
    (hv : v.toNat = c * 4096 + n) : w &&& 0xF00F#16 = v :=
  BitVec.eq_of_toNat_eq (by rw [and_F00F_toNat, h, hn, hv])

theorem of_F0FF {c : Nat} {k : Byte} {w v : Word} (h : fieldClass w = c) (hk : fieldKK w = k)
    (hv : v.toNat = c * 4096 + k.toNat) : w &&& 0xF0FF#16 = v :=
  BitVec.eq_of_toNat_eq (by rw [and_F0FF_toNat, h, hk, hv])

theorem cls : Statement .cls := rfl
theorem ret : Statement .ret := rfl
theorem jp (nnn) : Statement (.jp nnn) := of_F000 (fieldClass_wordNNN (by decide) nnn) rfl
theorem call (nnn) : Statement (.call nnn) := of_F000 (fieldClass_wordNNN (by decide) nnn) rfl
theorem seImm (x kk) : Statement (.seImm x kk) := of_F000 (fieldClass_wordXKK (by decide) x kk) rfl
theorem sneImm (x kk) : Statement (.sneImm x kk) := of_F000 (fieldClass_wordXKK (by decide) x kk) rfl
theorem seReg (x y) : Statement (.seReg x y) :=
  of_F00F (fieldClass_wordXYN (by decide) (by decide) x y) (fieldN_wordXYN (by decide) (by decide) x y) rfl
theorem ldImm (x kk) : Statement (.ldImm x kk) := of_F000 (fieldClass_wordXKK (by decide) x kk) rfl
theorem addImm (x kk) : Statement (.addImm x kk) := of_F000 (fieldClass_wordXKK (by decide) x kk) rfl
theorem ldReg (x y) : Statement (.ldReg x y) :=
  of_F00F (fieldClass_wordXYN (by decide) (by decide) x y) (fieldN_wordXYN (by decide) (by decide) x y) rfl
theorem orReg (x y) : Statement (.orReg x y) :=
  of_F00F (fieldClass_wordXYN (by decide) (by decide) x y) (fieldN_wordXYN (by decide) (by decide) x y) rfl
theorem andReg (x y) : Statement (.andReg x y) :=
  of_F00F (fieldClass_wordXYN (by decide) (by decide) x y) (fieldN_wordXYN (by decide) (by decide) x y) rfl
theorem xorReg (x y) : Statement (.xorReg x y) :=
  of_F00F (fieldClass_wordXYN (by decide) (by decide) x y) (fieldN_wordXYN (by decide) (by decide) x y) rfl
theorem addReg (x y) : Statement (.addReg x y) :=
  of_F00F (fieldClass_wordXYN (by decide) (by decide) x y) (fieldN_wordXYN (by decide) (by decide) x y) rfl
theorem sub (x y) : Statement (.sub x y) :=
  of_F00F (fieldClass_wordXYN (by decide) (by decide) x y) (fieldN_wordXYN (by decide) (by decide) x y) rfl
theorem shr (x y) : Statement (.shr x y) :=
  of_F00F (fieldClass_wordXYN (by decide) (by decide) x y) (fieldN_wordXYN (by decide) (by decide) x y) rfl
theorem subn (x y) : Statement (.subn x y) :=
  of_F00F (fieldClass_wordXYN (by decide) (by decide) x y) (fieldN_wordXYN (by decide) (by decide) x y) rfl
theorem shl (x y) : Statement (.shl x y) :=
  of_F00F (fieldClass_wordXYN (by decide) (by decide) x y) (fieldN_wordXYN (by decide) (by decide) x y) rfl
theorem sneReg (x y) : Statement (.sneReg x y) :=
  of_F00F (fieldClass_wordXYN (by decide) (by decide) x y) (fieldN_wordXYN (by decide) (by decide) x y) rfl
theorem ldI (nnn) : Statement (.ldI nnn) := of_F000 (fieldClass_wordNNN (by decide) nnn) rfl
theorem jpOff (x nnn) : Statement (.jpOff x nnn) := of_F000 (fieldClass_wordNNN (by decide) nnn) rfl
theorem rnd (x kk) : Statement (.rnd x kk) := of_F000 (fieldClass_wordXKK (by decide) x kk) rfl
theorem drw (x y n) : Statement (.drw x y n) :=
  of_F000 (fieldClass_wordXYN (by decide) n.isLt x y) rfl
theorem skp (x) : Statement (.skp x) :=
  of_F0FF (fieldClass_wordXKK (by decide) x _) (fieldKK_wordXKK (by decide) x _) rfl
theorem sknp (x) : Statement (.sknp x) :=
  of_F0FF (fieldClass_wordXKK (by decide) x _) (fieldKK_wordXKK (by decide) x _) rfl
theorem ldVxDt (x) : Statement (.ldVxDt x) :=
  of_F0FF (fieldClass_wordXKK (by decide) x _) (fieldKK_wordXKK (by decide) x _) rfl
theorem ldVxK (x) : Statement (.ldVxK x) :=
  of_F0FF (fieldClass_wordXKK (by decide) x _) (fieldKK_wordXKK (by decide) x _) rfl
theorem ldDtVx (x) : Statement (.ldDtVx x) :=
  of_F0FF (fieldClass_wordXKK (by decide) x _) (fieldKK_wordXKK (by decide) x _) rfl
theorem ldStVx (x) : Statement (.ldStVx x) :=
  of_F0FF (fieldClass_wordXKK (by decide) x _) (fieldKK_wordXKK (by decide) x _) rfl
theorem addI (x) : Statement (.addI x) :=
  of_F0FF (fieldClass_wordXKK (by decide) x _) (fieldKK_wordXKK (by decide) x _) rfl
theorem ldF (x) : Statement (.ldF x) :=
  of_F0FF (fieldClass_wordXKK (by decide) x _) (fieldKK_wordXKK (by decide) x _) rfl
theorem ldB (x) : Statement (.ldB x) :=
  of_F0FF (fieldClass_wordXKK (by decide) x _) (fieldKK_wordXKK (by decide) x _) rfl
theorem stRegs (x) : Statement (.stRegs x) :=
  of_F0FF (fieldClass_wordXKK (by decide) x _) (fieldKK_wordXKK (by decide) x _) rfl
theorem ldRegs (x) : Statement (.ldRegs x) :=
  of_F0FF (fieldClass_wordXKK (by decide) x _) (fieldKK_wordXKK (by decide) x _) rfl

end Sys2Proof.Laws.EncodeMatchesRow
end

