-- ==== Sys2Proof/Laws/Step.lean ====
section
/-! SUPPORT. One step is one event: the lemmas a claim about `step` starts from. -/

namespace Sys2Proof.Machine

/-- The step of a ready core fetches, decodes and executes. -/
theorem step_ready {s : State} (h : s.Ready) : step s = fetchDecodeExecute s := by
  simp only [step, nextEvent]
  split
  · exact stepEvent_running h.running h.notWaiting
  · simp_all [h.noEvent]

theorem step_of_noEvent {s : State} (h : s.hostEvents = []) : step s = stepEvent s := by
  simp [step, nextEvent, h]

theorem step_of_event {s : State} {e : HostEvent} {es : List HostEvent} (h : s.hostEvents = e :: es) :
    step s = deliver e (s.setHostEvents es) := by
  simp [step, nextEvent, h]

/-- Every step is a `STEP` event or one of the other three, on the state whose list has lost it. -/
theorem step_cases (s : State) :
    (∃ u, (u = s ∧ s.hostEvents = [] ∨ ∃ es, s.hostEvents = .step :: es ∧ u = s.setHostEvents es) ∧
      step s = stepEvent u) ∨
    (∃ es, s.hostEvents = .tick :: es ∧ step s = .next (tickEvent (s.setHostEvents es))) ∨
    (∃ k es, s.hostEvents = .keys k :: es ∧ step s = .next (keysEvent k (s.setHostEvents es))) ∨
    (∃ rom la es, s.hostEvents = .init rom la :: es ∧
      step s = initEvent rom la (s.setHostEvents es)) := by
  cases h : s.hostEvents with
  | nil => exact .inl ⟨s, .inl ⟨rfl, rfl⟩, step_of_noEvent h⟩
  | cons e es =>
    rw [step_of_event h]
    cases e with
    | init rom la => exact .inr (.inr (.inr ⟨rom, la, es, rfl, rfl⟩))
    | step => exact .inl ⟨_, .inr ⟨es, rfl, rfl⟩, rfl⟩
    | tick => exact .inr (.inl ⟨es, rfl, rfl⟩)
    | keys k => exact .inr (.inr (.inl ⟨k, es, rfl, rfl⟩))

/-- The outcomes of a `STEP` event (R70): nothing happens, one of the two errors before execution, or
the instruction is executed. -/
theorem stepEvent_cases (s : State) :
    stepEvent s = .next s ∨
    (s.status = .running ∧ s.wait = none ∧
      ((∃ a, checkRange s.pc 2 = some a ∧
        stepEvent s = .next (s.setStatus (.halted (.memoryOutOfBounds a)))) ∨
      (checkRange s.pc 2 = none ∧ decodeWord s.fetchWord = none ∧
        stepEvent s = .next (s.setStatus (.halted (.invalidOpcode s.fetchWord s.pc)))) ∨
      (∃ i, checkRange s.pc 2 = none ∧ decodeWord s.fetchWord = some i ∧
        stepEvent s = exec i s))) := by
  cases hs : s.status with
  | halted e => exact .inl (stepEvent_halted hs)
  | running =>
    cases hw : s.wait with
    | some x => exact .inl (stepEvent_waiting hw)
    | none =>
      rw [stepEvent_running hs hw]
      exact .inr ⟨rfl, rfl, fetchDecodeExecute_cases s⟩

theorem tickEvent_running {s : State} (h : s.status = .running) :
    tickEvent s = (s.setDt (countDown s.dt)).setSt (countDown s.st) := by
  simp [tickEvent, h]

theorem tickEvent_halted {s : State} {e : HaltError} (h : s.status = .halted e) : tickEvent s = s := by
  simp [tickEvent, h]

theorem keysEvent_running {s : State} (k : Keys) (h : s.status = .running) :
    keysEvent k s = (endWait k s).setKeys k := by
  simp [keysEvent, h]

theorem keysEvent_halted {s : State} (k : Keys) {e : HaltError} (h : s.status = .halted e) :
    keysEvent k s = s := by
  simp [keysEvent, h]

/-- A key wait ends, or the state is as before (R164). -/
theorem endWait_cases (k : Keys) (s : State) :
    (∃ x key, s.wait = some x ∧ newlyPressed s.keys k = some key ∧
      endWait k s = (s.setV x (BitVec.ofNat 8 key.val)).setWait none) ∨
    ((s.wait = none ∨ newlyPressed s.keys k = none) ∧ endWait k s = s) := by
  unfold endWait
  cases hw : s.wait with
  | none => exact .inr ⟨.inl rfl, rfl⟩
  | some x =>
    cases hn : newlyPressed s.keys k with
    | none => exact .inr ⟨.inr rfl, rfl⟩
    | some key => exact .inl ⟨x, key, rfl, rfl, rfl⟩

/-- R211 in plain arithmetic. -/
theorem initAccepts_iff {rom : List Byte} {la : Word} :
    initAccepts rom la = true ↔
      la.toNat + rom.length ≤ 0x1000 ∧ la.toNat ≤ 0xFFF ∧
        ∀ k, k < rom.length → inFont (la.toNat + k) = false := by
  simp only [initAccepts, Bool.and_eq_true, decide_eq_true_eq, Bool.not_eq_true',
    touchesFont_eq_false, Config.memSize]
  constructor
  · rintro ⟨⟨h1, h2⟩, h3⟩
    exact ⟨h1, by omega, h2⟩
  · rintro ⟨h1, h2, h3⟩
    exact ⟨⟨h1, h3⟩, by omega⟩

theorem inFont_eq_true {a : Nat} : inFont a = true ↔ 0x050 ≤ a ∧ a ≤ 0x09F := by
  simp only [inFont, Config.fontBase, Config.glyphBytes, Bool.and_eq_true, decide_eq_true_eq]
  omega

theorem beepOut_eq_true {s : State} : s.beepOut = true ↔ 0 < s.st.toNat := by
  simp only [State.beepOut, decide_eq_true_eq]

end Sys2Proof.Machine
end

