-- ==== Sys2Proof/Tests/Slice0.lean ====
section
/-! SUPPORT. The model's own tests: decoding of a word of every instruction written out from the formats
of R74 and the patterns of R78; one-step vectors of spec/95_test_vectors.md, its section named beside
each group; and, for every statement with hypotheses, a witness that meets them. -/

namespace Sys2Proof.Tests

open Sys2Proof.Machine

/-! ## WellFormed -/

/-- The one check: the register of a `Bnnn` is the top nibble of its address (R107). -/
theorem test_wellFormed_refuses_jpOff : (Instr.jpOff 3 0x2FE#12).wellFormed = false := by decide

theorem test_wellFormed_accepts_jpOff : (Instr.jpOff 2 0x2FE#12).wellFormed = true := by decide

/-! ## Decoding, a word of every instruction (R74, R78) -/

theorem test_decode_cls : decodeWord 0b0000_0000_1110_0000#16 = some .cls := by decide

theorem test_decode_ret : decodeWord 0b0000_0000_1110_1110#16 = some .ret := by decide

theorem test_decode_jp : decodeWord 0b0001_1010_1011_1100#16 = some (.jp 0xABC#12) := by decide

theorem test_decode_call : decodeWord 0b0010_1010_1011_1100#16 = some (.call 0xABC#12) := by decide

theorem test_decode_se_imm : decodeWord 0b0011_1010_0100_0010#16 = some (.seImm 10 0x42#8) := by decide

theorem test_decode_sne_imm : decodeWord 0b0100_1010_0100_0010#16 = some (.sneImm 10 0x42#8) := by decide

theorem test_decode_se_reg : decodeWord 0b0101_0001_0010_0000#16 = some (.seReg 1 2) := by decide

theorem test_decode_ld_imm : decodeWord 0b0110_1010_1111_1111#16 = some (.ldImm 10 0xFF#8) := by decide

theorem test_decode_add_imm : decodeWord 0b0111_1010_0001_0000#16 = some (.addImm 10 0x10#8) := by decide

theorem test_decode_ld_reg : decodeWord 0b1000_0001_0010_0000#16 = some (.ldReg 1 2) := by decide

theorem test_decode_or : decodeWord 0b1000_0001_0010_0001#16 = some (.orReg 1 2) := by decide

theorem test_decode_and : decodeWord 0b1000_0001_0010_0010#16 = some (.andReg 1 2) := by decide

theorem test_decode_xor : decodeWord 0b1000_0001_0010_0011#16 = some (.xorReg 1 2) := by decide

theorem test_decode_add_reg : decodeWord 0b1000_0001_0010_0100#16 = some (.addReg 1 2) := by decide

theorem test_decode_sub : decodeWord 0b1000_0001_0010_0101#16 = some (.sub 1 2) := by decide

theorem test_decode_shr : decodeWord 0b1000_0001_0010_0110#16 = some (.shr 1 2) := by decide

theorem test_decode_subn : decodeWord 0b1000_0001_0010_0111#16 = some (.subn 1 2) := by decide

theorem test_decode_shl : decodeWord 0b1000_0001_0010_1110#16 = some (.shl 1 2) := by decide

theorem test_decode_sne_reg : decodeWord 0b1001_0001_0010_0000#16 = some (.sneReg 1 2) := by decide

theorem test_decode_ld_i : decodeWord 0b1010_0010_1111_0000#16 = some (.ldI 0x2F0#12) := by decide

theorem test_decode_jp_off : decodeWord 0b1011_0010_1111_1110#16 = some (.jpOff 2 0x2FE#12) := by decide

theorem test_decode_rnd : decodeWord 0b1100_0011_0000_1111#16 = some (.rnd 3 0x0F#8) := by decide

theorem test_decode_drw : decodeWord 0b1101_0000_0001_0101#16 = some (.drw 0 1 5) := by decide

theorem test_decode_skp : decodeWord 0b1110_0010_1001_1110#16 = some (.skp 2) := by decide

theorem test_decode_sknp : decodeWord 0b1110_0010_1010_0001#16 = some (.sknp 2) := by decide

theorem test_decode_ld_vx_dt : decodeWord 0b1111_0101_0000_0111#16 = some (.ldVxDt 5) := by decide

theorem test_decode_ld_vx_k : decodeWord 0b1111_0011_0000_1010#16 = some (.ldVxK 3) := by decide

theorem test_decode_ld_dt_vx : decodeWord 0b1111_0101_0001_0101#16 = some (.ldDtVx 5) := by decide

theorem test_decode_ld_st_vx : decodeWord 0b1111_0101_0001_1000#16 = some (.ldStVx 5) := by decide

theorem test_decode_add_i : decodeWord 0b1111_0011_0001_1110#16 = some (.addI 3) := by decide

theorem test_decode_ld_f : decodeWord 0b1111_0011_0010_1001#16 = some (.ldF 3) := by decide

theorem test_decode_ld_b : decodeWord 0b1111_0011_0011_0011#16 = some (.ldB 3) := by decide

theorem test_decode_st_regs : decodeWord 0b1111_0010_0101_0101#16 = some (.stRegs 2) := by decide

theorem test_decode_ld_regs : decodeWord 0b1111_0010_0110_0101#16 = some (.ldRegs 2) := by decide

/-- Invalid words of 2.8, one of each class of R80. -/
theorem test_decode_invalid :
    [0x0000#16, 0x00E1#16, 0x0123#16, 0x00FF#16, 0x5AB1#16, 0x9AB2#16, 0x8AB8#16, 0x8ABF#16, 0xE09F#16,
      0xE000#16, 0xF000#16, 0xF030#16, 0xF075#16, 0xFFFF#16].all fun w => decodeWord w = none := by
  decide

/-- The bytes of a word in memory order, and one that is missing (R51, R72). -/
theorem test_decode_bytes :
    decodeBytes [0x6A#8, 0x07#8, 0x12#8] = .ok (.ldImm 10 0x07#8, [0x12#8]) ∧
      decodeBytes [0x6A#8] = .error .truncated := ⟨rfl, rfl⟩

/-! ## One step: helpers -/

/-- A piece of the state after the `STEP` that runs the word `w` on `s`. -/
def after {α : Type} (w : Nat) (s : State) (f : State → α) : Option α :=
  match step (s.withFetchWord 16 w) with
  | .next t => some (f t)
  | .fault _ | .refused _ => none

/-- The refusal of the `STEP` that runs the word `w` on `s`. -/
def refusal (w : Nat) (s : State) : Option Refusal :=
  match step (s.withFetchWord 16 w) with
  | .refused r => some r
  | .next _ | .fault _ => none

/-- Two registers set. -/
def withV (x : Nibble) (a : Byte) (y : Nibble) (b : Byte) : State := (State.reset.setV x a).setV y b

/-- A store done before the step. -/
def withMem (a : Nat) (bs : List Byte) (s : State) : State := s.setMem (Memory.writeBytes s.mem a bs)

/-- A pixel set before the step. -/
def withPixel (y : Fin 32) (x : Fin 64) (s : State) : State := s.setFb (togglePixel s.fb y x)

/-- The key state with these keys down. -/
def keysDown (l : List Nibble) : Keys := Vector.ofFn fun k => l.contains k

/-! ## Control flow (2.1) -/

theorem test_jp : after 0x1ABC State.reset (·.pc) = some 0x0ABC#16 := by decide

theorem test_jp_self :
    after 0x1200 State.reset id = some (State.reset.withFetchWord 16 0x1200) := by decide

theorem test_call :
    after 0x2300 (State.reset.setStack 1#8 (Vector.replicate 16 0x0204#16))
      (fun t => (t.stack[1], t.sp, t.pc)) = some (0x0202#16, 2#8, 0x0300#16) := by decide

theorem test_call_overflow :
    after 0x2ABC (State.reset.setStack 16#8 State.reset.stack) (fun t => (t.status, t.pc, t.sp)) =
      some (.halted .stackOverflow, 0x0200#16, 16#8) := by decide

theorem test_ret :
    after 0x00EE (State.reset.setStack 2#8 (State.reset.stack.set 1 0x0304#16)) (fun t => (t.sp, t.pc)) =
      some (1#8, 0x0304#16) := by decide

theorem test_ret_underflow :
    after 0x00EE State.reset (fun t => (t.status, t.pc)) =
      some (.halted .stackUnderflow, 0x0200#16) := by decide

theorem test_se_imm : after 0x3A42 (State.reset.setV 10 0x42#8) (·.pc) = some 0x0204#16 := by decide

theorem test_se_imm_not :
    after 0x3A42 (State.reset.setV 10 0x43#8) (·.pc) = some 0x0202#16 := by decide

theorem test_sne_imm :
    after 0x4A42 (State.reset.setV 10 0x42#8) (·.pc) = some 0x0202#16 := by decide

theorem test_sne_imm_not :
    after 0x4A42 (State.reset.setV 10 0x43#8) (·.pc) = some 0x0204#16 := by decide

theorem test_se_reg : after 0x5120 (withV 1 0x07#8 2 0x07#8) (·.pc) = some 0x0204#16 := by decide

theorem test_se_reg_not :
    after 0x5120 (withV 1 0x07#8 2 0x08#8) (·.pc) = some 0x0202#16 := by decide

theorem test_sne_reg : after 0x9120 (withV 1 0x07#8 2 0x07#8) (·.pc) = some 0x0202#16 := by decide

theorem test_sne_reg_not :
    after 0x9120 (withV 1 0x07#8 2 0x08#8) (·.pc) = some 0x0204#16 := by decide

theorem test_jp_off :
    after 0xB2FE (withV 0 0x04#8 2 0x10#8) (·.pc) = some 0x030E#16 ∧
      after 0xBFFF (State.reset.setV 15 0xFF#8) (·.pc) = some 0x10FE#16 := by decide

theorem test_jp_off_v0 :
    after 0xB2FE { withV 0 0x04#8 2 0x10#8 with params := { Config.hardware with jumpOffset := .v0 } }
      (·.pc) = some 0x0302#16 := by decide

/-! ## Registers (2.2) -/

theorem test_ld_imm :
    after 0x6F07 State.reset (fun t => (t.reg 15, t.pc)) = some (0x07#8, 0x0202#16) := by decide

theorem test_add_imm :
    after 0x7A01 (State.reset.setV 10 0xFF#8) (fun t => (t.reg 10, t.reg 15)) = some (0x00#8, 0x00#8) := by decide

theorem test_add_imm_vf :
    after 0x7F01 (State.reset.setV 15 0xFF#8) (·.reg 15) = some 0x00#8 := by decide

theorem test_ld_reg :
    after 0x8120 (withV 1 0x01#8 2 0xAB#8) (fun t => (t.reg 1, t.reg 2)) = some (0xAB#8, 0xAB#8) := by decide

theorem test_or :
    after 0x8121 ((withV 1 0xF0#8 2 0x0F#8).setV 15 1#8) (fun t => (t.reg 1, t.reg 15)) =
      some (0xFF#8, 1#8) := by decide

theorem test_and :
    after 0x8122 ((withV 1 0xF0#8 2 0x3C#8).setV 15 1#8) (fun t => (t.reg 1, t.reg 15)) =
      some (0x30#8, 1#8) := by decide

theorem test_xor :
    after 0x8123 ((withV 1 0xF0#8 2 0x3C#8).setV 15 1#8) (fun t => (t.reg 1, t.reg 15)) =
      some (0xCC#8, 1#8) := by decide

theorem test_add_reg :
    after 0x8124 (withV 1 0xFF#8 2 0x01#8) (fun t => (t.reg 1, t.reg 15)) = some (0x00#8, 1#8) := by decide

theorem test_add_reg_vf :
    after 0x8F14 (withV 15 0x01#8 1 0x02#8) (·.reg 15) = some 0x00#8 := by decide

theorem test_sub :
    after 0x8125 (withV 1 0x03#8 2 0x05#8) (fun t => (t.reg 1, t.reg 15)) = some (0xFE#8, 0#8) := by decide

theorem test_sub_equal :
    after 0x8125 (withV 1 0x07#8 2 0x07#8) (fun t => (t.reg 1, t.reg 15)) = some (0x00#8, 1#8) := by decide

theorem test_subn :
    after 0x8127 (withV 1 0x03#8 2 0x05#8) (fun t => (t.reg 1, t.reg 15)) = some (0x02#8, 1#8) := by decide

theorem test_shr :
    after 0x8126 (withV 1 0x05#8 2 0xFF#8) (fun t => (t.reg 1, t.reg 2, t.reg 15)) =
      some (0x02#8, 0xFF#8, 1#8) := by decide

theorem test_shr_vf :
    after 0x8F26 (State.reset.setV 15 0x02#8) (·.reg 15) = some 0x00#8 := by decide

theorem test_shl :
    after 0x812E (withV 1 0x81#8 2 0x00#8) (fun t => (t.reg 1, t.reg 15)) = some (0x02#8, 1#8) := by decide

theorem test_shl_vf :
    after 0x8F2E (State.reset.setV 15 0x41#8) (·.reg 15) = some 0x00#8 := by decide

/-! ## Index register and memory (2.3) -/

theorem test_ld_i :
    after 0xAFFF State.reset (fun t => (t.i, t.pc)) = some (0x0FFF#16, 0x0202#16) := by decide

theorem test_add_i :
    after 0xFF1E ((State.reset.setV 15 0x20#8).setI 0x0100#16) (fun t => (t.i, t.reg 15)) =
      some (0x0120#16, 0#8) := by decide

theorem test_add_i_wraps :
    after 0xF31E ((State.reset.setV 3 0x02#8).setI 0xFFFF#16) (fun t => (t.i, t.reg 15)) =
      some (0x0001#16, 1#8) := by decide

theorem test_ld_f : after 0xF329 (State.reset.setV 3 0x0A#8) (·.i) = some 0x0082#16 := by decide

theorem test_ld_f_high :
    refusal 0xF329 (State.reset.setV 3 0x10#8) = some (.highDigit 0x10#8) ∧
      after 0xF329 { State.reset.setV 3 0x10#8 with params := { Config.hardware with highDigit := .mask } }
        (·.i) = some 0x0050#16 := by decide

/-- The glyph of `A` and the edges of the font region (R57, R58). -/
theorem test_font :
    (List.range 5).map (State.reset.byte <| 0x82 + ·) = [0xF0#8, 0x90#8, 0xF0#8, 0x90#8, 0x90#8] ∧
      State.reset.byte 0x4F = 0#8 ∧ State.reset.byte 0x9F = 0x80#8 ∧ State.reset.byte 0xA0 = 0#8 := by decide

theorem test_ld_b :
    after 0xF333 ((State.reset.setV 3 0x9C#8).setI 0x0300#16)
      (fun t => (t.byte 0x300, t.byte 0x301, t.byte 0x302, t.i)) =
      some (0x01#8, 0x05#8, 0x06#8, 0x0300#16) := by decide

theorem test_ld_b_stops :
    after 0xF333 ((State.reset.setV 3 0x07#8).setI 0x0FFE#16) (fun t => (t.status, t.byte 0xFFE)) =
      some (.halted (.memoryOutOfBounds 0x1000#16), 0#8) ∧
      refusal 0xF333 ((State.reset.setV 3 0x07#8).setI 0x004E#16) = some (.fontStore 0x004E#16) := by decide

theorem test_st_regs :
    after 0xF255 (((withV 0 0x11#8 1 0x22#8).setV 2 0x33#8).setI 0x0300#16)
      (fun t => (t.byte 0x300, t.byte 0x301, t.byte 0x302, t.byte 0x303, t.i)) =
      some (0x11#8, 0x22#8, 0x33#8, 0x00#8, 0x0300#16) := by decide

theorem test_st_regs_edges :
    refusal 0xF055 ((State.reset.setV 0 0x11#8).setI 0x009F#16) = some (.fontStore 0x009F#16) ∧
      after 0xF055 ((State.reset.setV 0 0x11#8).setI 0x00A0#16) (·.byte 0xA0) = some 0x11#8 := by decide

theorem test_ld_regs :
    after 0xF265 ((withMem 0x300 [0xAA#8, 0xBB#8, 0xCC#8, 0xDD#8] State.reset).setI 0x0300#16)
      (fun t => (t.reg 0, t.reg 1, t.reg 2, t.reg 3, t.i)) =
      some (0xAA#8, 0xBB#8, 0xCC#8, 0x00#8, 0x0300#16) := by decide

theorem test_ld_regs_font :
    after 0xF165 (State.reset.setI 0x0050#16) (fun t => (t.reg 0, t.reg 1)) = some (0xF0#8, 0x90#8) := by decide

/-! ## Display (2.4) -/

theorem test_cls :
    after 0x00E0 (withPixel 0 0 (withPixel 31 63 State.reset)) (·.fb) = some blankDisplay := by decide

theorem test_drw_wraps :
    after 0xD011 (((withMem 0x300 [0xC0#8] State.reset).setI 0x0300#16).setV 0 0x3F#8)
      (fun t => (t.pixel 0 63, t.pixel 0 0, t.pixel 0 1, t.reg 15)) = some (true, true, false, 0#8) := by decide

/-- Both coordinates from the old `VF`, a collision (R141, R144). -/
theorem test_drw_vf :
    after 0xDFF1 (withPixel 3 3 (((withMem 0x300 [0x80#8] State.reset).setI 0x0300#16).setV 15 0x03#8))
      (fun t => (t.pixel 3 3, t.reg 15)) = some (false, 1#8) := by decide

/-! ## Timers, input, random (2.5 to 2.7) -/

theorem test_ld_vx_dt :
    after 0xF507 (State.reset.setDt 0x3C#8) (fun t => (t.reg 5, t.dt)) = some (0x3C#8, 0x3C#8) := by decide

theorem test_ld_dt_vx :
    after 0xF515 (State.reset.setV 5 0x3C#8) (fun t => (t.dt, t.st)) = some (0x3C#8, 0x00#8) := by decide

theorem test_ld_st_vx :
    after 0xF518 (State.reset.setV 5 0x03#8) (fun t => (t.st, t.beepOut)) = some (0x03#8, true) := by decide

theorem test_skp :
    after 0xE29E ((State.reset.setV 2 5#8).setKeys (keysDown [5])) (·.pc) = some 0x0204#16 ∧
      after 0xE29E (State.reset.setV 2 5#8) (·.pc) = some 0x0202#16 := by decide

theorem test_skp_high :
    refusal 0xE29E ((State.reset.setV 2 0x15#8).setKeys (keysDown [5])) = some (.highDigit 0x15#8) := by decide

theorem test_sknp :
    after 0xE2A1 (State.reset.setV 2 5#8) (·.pc) = some 0x0204#16 ∧
      after 0xE2A1 ((State.reset.setV 2 5#8).setKeys (keysDown [5])) (·.pc) = some 0x0202#16 := by decide

theorem test_ld_vx_k :
    after 0xF30A (State.reset.setKeys (keysDown [1])) (fun t => (t.wait, t.pc, t.reg 3)) =
      some (some 3, 0x0202#16, 0#8) := by decide

theorem test_rnd :
    after 0xC30F { State.reset with rndFeed := [0xA7#8] } (fun t => (t.reg 3, t.rndFeed, t.rndDraws)) =
      some (0x07#8, [], 1) := by decide

/-! ## Fetch (2.8, 2.9) -/

theorem test_invalid :
    after 0xFFFF State.reset (fun t => (t.status, t.pc)) =
      some (.halted (.invalidOpcode 0xFFFF#16 0x0200#16), 0x0200#16) := by decide

theorem test_fetch_edges :
    step (State.reset.setPc 0x0FFF#16) =
      .next ((State.reset.setPc 0x0FFF#16).setStatus (.halted (.memoryOutOfBounds 0x1000#16))) ∧
    step (State.reset.setPc 0x10FE#16) =
      .next ((State.reset.setPc 0x10FE#16).setStatus (.halted (.memoryOutOfBounds 0x10FE#16))) :=
  ⟨rfl, rfl⟩

/-! ## Events (part 3) -/

theorem test_tick :
    (tickEvent ((State.reset.setDt 2#8).setSt 1#8)).dt = 1#8 ∧
      (tickEvent ((State.reset.setDt 2#8).setSt 1#8)).st = 0#8 ∧
      tickEvent State.reset = State.reset := by decide

theorem test_keys_lowest_new_key :
    keysEvent (keysDown [1, 7, 9]) ((State.reset.setKeys (keysDown [1])).setWait (some 3)) =
      (State.reset.setV 3 7#8).setKeys (keysDown [1, 7, 9]) := by decide

theorem test_keys_held_key_does_not_end_the_wait :
    keysEvent (keysDown [1]) ((State.reset.setKeys (keysDown [1])).setWait (some 3)) =
      (State.reset.setKeys (keysDown [1])).setWait (some 3) := by decide

theorem test_init :
    initAccepts [0x00#8, 0xE0#8] 0x0050#16 = false ∧ initAccepts [0x00#8, 0xE0#8] 0x00A0#16 = true ∧
      initAccepts [] 0x1000#16 = false := by decide

theorem test_init_rom :
    initState [0x12#8, 0x00#8] 0x200#16 (State.reset.setStatus (.halted .stackOverflow)) =
      State.reset.setMem [(0x200, 0x12#8)] := by decide

/-! ## Witnesses: for each statement with hypotheses, states and operands that meet them -/

/-- A ready state with the bytes `bs` at its `PC`. -/
def readyAt (pc : Word) (bs : List Byte) : State := (withMem pc.toNat bs State.reset).setPc pc

theorem readyAt_ready (pc : Word) (bs : List Byte) : (readyAt pc bs).Ready := ⟨rfl, rfl, rfl⟩

/-- The state of a run that is waiting for `V[3]`. -/
def waiting : State := (State.reset.setWait (some 3)).setDt 5#8

/-- A halted state. -/
def halted : State := (State.reset.setSt 5#8).setStatus (.halted .stackUnderflow)

theorem witness_DecodeOfEncodeIsTheInstruction :
    (Instr.jpOff 15 0xFFF#12).wellFormed = true ∧ (Instr.drw 15 0 15).wellFormed = true := by decide

theorem witness_EncodeOfDecodeIsTheWord : ∃ i, decodeWord 0xBFFF#16 = some i := ⟨_, rfl⟩

theorem witness_DecodeFollowsMaskAndMatch :
    (∃ i, decodeWord 0x8126#16 = some i) ∧
    ∃ r ∈ opcodeRows, 0xF0FF#16 &&& 0xF0FF#16 = 0xF0FF#16 ∧ 0xFF65#16 &&& r.mask = r.value :=
  ⟨⟨_, rfl⟩, rowOf (.ldRegs 15), by decide, rfl, rfl⟩

/-- One ready state for each class of R80, the last at the highest fetchable `PC`. -/
theorem witness_InvalidWordsAreTheTableAndRaise :
    decodeWord 0x0000#16 = none ∧ InvalidWord 0x0000#16 ∧ InvalidWord 0x5AB1#16 ∧
    InvalidWord 0x8ABF#16 ∧ InvalidWord 0x9AB2#16 ∧ InvalidWord 0xE09F#16 ∧
    (readyAt 0xFFE#16 [0xFF#8, 0xFF#8]).Ready ∧ (readyAt 0xFFE#16 [0xFF#8, 0xFF#8]).pc.toNat ≤ 0xFFE ∧
    InvalidWord (readyAt 0xFFE#16 [0xFF#8, 0xFF#8]).fetchWord := by
  refine ⟨rfl, ?_, ?_, ?_, ?_, ?_, readyAt_ready _ _, by decide, ?_⟩ <;> unfold InvalidWord <;> decide

theorem witness_ByteStreamsDecodeInOrder : (Instr.jpOff 0 0x0FF#12).wellFormed = true := by decide

theorem witness_StepExecutesTheFetchedInstruction :
    (let s := readyAt 0xFFE#16 [0x60#8, 0x01#8]
     s.Ready ∧ s.pc.toNat ≤ 0xFFE ∧
      decodeWord (wordOfBytes (s.byte s.pc.toNat) (s.byte (s.pc.toNat + 1))) = some (.ldImm 0 1#8)) ∧
    (State.reset.setHostEvents [.tick]).hostEvents = HostEvent.tick :: [] :=
  ⟨⟨readyAt_ready _ _, by decide, by decide⟩, rfl⟩

theorem witness_FetchOutOfRangeRaises :
    ((readyAt 0xFFF#16 []).Ready ∧ 0xFFF ≤ (readyAt 0xFFF#16 []).pc.toNat) ∧
    ((readyAt 0x1000#16 []).Ready ∧ 0xFFF ≤ (readyAt 0x1000#16 []).pc.toNat) :=
  ⟨⟨readyAt_ready _ _, by decide⟩, readyAt_ready _ _, by decide⟩

theorem witness_HaltedIsTerminalButForInit :
    halted.status = .halted .stackUnderflow ∧ initAccepts [0x00#8] 0x0FFF#16 = true := by decide

theorem witness_KeyWaitHoldsStepNotTick :
    waiting.status = .running ∧ waiting.wait = some 3 := ⟨rfl, rfl⟩

/-- A `KEYS` and an `INIT` that end the wait. -/
theorem witness_OnlyKeysOrInitEndTheWait :
    (waiting.setHostEvents [.keys (keysDown [0])]).wait = some 3 ∧
    (∃ t, step (waiting.setHostEvents [.keys (keysDown [0])]) = .next t ∧ t.wait ≠ some 3) ∧
    ∃ t, step (waiting.setHostEvents [.init [] 0x200#16]) = .next t ∧ t.wait ≠ some 3 :=
  ⟨rfl, ⟨_, rfl, by decide⟩, ⟨_, rfl, by decide⟩⟩

theorem witness_TickDecrementsBothTimers :
    (State.reset.status = .running ∧ ¬ 0 < State.reset.dt.toNat) ∧
    (waiting.status = .running ∧ 0 < waiting.dt.toNat) ∧
    halted.status = .halted .stackUnderflow := by decide

theorem witness_TimersCountTicks : (State.reset.setSt 1#8).status = .running := rfl

theorem witness_KeysEventDeliversLowestNewKey :
    (waiting.status = .running ∧ waiting.wait = some 3 ∧
      ((keysDown [7, 9])[(7 : Nibble)] = true ∧ waiting.keys[(7 : Nibble)] = false) ∧
      ∀ j : Nibble, j < 7 → ¬ ((keysDown [7, 9])[j] = true ∧ waiting.keys[j] = false)) ∧
    State.reset.wait = none ∧
    ∀ j : Nibble, ¬ ((keysDown [])[j] = true ∧ waiting.keys[j] = false) := by decide

/-- The largest load address with one byte, the first address after the font, and three violations. -/
theorem witness_InitWritesTheWholeRecord :
    (let fits (la : Word) (n : Nat) := la.toNat + n ≤ 0x1000 ∧ la.toNat ≤ 0xFFF ∧
        ∀ k, k < n → ¬ (0x050 ≤ la.toNat + k ∧ la.toNat + k ≤ 0x09F)
     15 < 16 ∧ 4 < 5 ∧ fits 0xFFF#16 1 ∧ fits 0x0A0#16 2 ∧ fits 0x050#16 0 ∧
      ¬ fits 0x200#16 0xE01 ∧ ¬ fits 0x04F#16 2 ∧ ¬ fits 0x1000#16 0) := by
  refine ⟨by decide, by decide, by decide, by decide, by decide, fun h => absurd h.1 (by decide), ?_, by decide⟩
  exact fun h => h.2.2 1 (by decide) (by decide)

theorem witness_ResetIsInitOfTheEmptyRom :
    waiting.params = Config.hardware ∧ waiting.hostEvents = [] ∧ waiting.rndFeed = [] ∧
      waiting.rndDraws = 0 ∧ ¬ (0x050 ≤ 0x0A0 ∧ 0x0A0 ≤ 0x09F) := ⟨rfl, rfl, rfl, rfl, by decide⟩

/-- The three ends of a beep. -/
theorem witness_BeepFallsOnlyByTickOrStore :
    (let s := (State.reset.setSt 1#8).setHostEvents [.tick]
     ∃ t, step s = .next t ∧ s.beepOut = true ∧ t.beepOut = false) ∧
    (let s := (readyAt 0x300#16 [0xF5#8, 0x18#8]).setSt 9#8
     ∃ t, step s = .next t ∧ s.beepOut = true ∧ t.beepOut = false) ∧
    (let s := halted.setHostEvents [.init [] 0x200#16]
     ∃ t, step s = .next t ∧ s.beepOut = true ∧ t.beepOut = false) :=
  ⟨⟨_, rfl, rfl, rfl⟩, ⟨_, rfl, rfl, rfl⟩, ⟨_, rfl, rfl, rfl⟩⟩

/-- The same contents written in two orders. -/
theorem witness_EqualContentsAreEqualMemories :
    (let m := Memory.write (Memory.write [] 0x300 1#8) 0x200 2#8
     let m' := Memory.write (Memory.write [] 0x200 2#8) 0x300 1#8
     Memory.wf m ∧ Memory.wf m' ∧ ∀ a, Memory.read m a = Memory.read m' a) :=
  ⟨by decide, by decide, fun _ => rfl⟩

/-- The last font byte, and a store whose last cell is the first font byte. -/
theorem witness_FontStoresFollowThePolicy :
    (let s := State.reset.setI 0x009F#16
     s.i.toNat + dataCells (.stRegs 0) ≤ 0x1000 ∧
      (∃ k, k < dataCells (.stRegs 0) ∧ 0x050 ≤ s.i.toNat + k ∧ s.i.toNat + k ≤ 0x09F) ∧
      s.params.fontWrite = .refuse) ∧
    (let s := { State.reset with i := 0x004E#16, params := { Config.hardware with fontWrite := .allow } }
     s.i.toNat + dataCells (.ldB 3) ≤ 0x1000 ∧
      (∃ k, k < dataCells (.ldB 3) ∧ 0x050 ≤ s.i.toNat + k ∧ s.i.toNat + k ≤ 0x09F) ∧
      s.params.fontWrite = .allow) :=
  ⟨⟨by decide, ⟨0, by decide⟩, rfl⟩, by decide, ⟨2, by decide⟩, rfl⟩

/-- The lowest `I` that is out of range for each shape, and one above `0xFFF`. -/
theorem witness_DataOutOfRangeRaises :
    (0 < dataCells (.drw 0 0 1) ∧ 0x1000 < (0x1000#16).toNat + dataCells (.drw 0 0 1)) ∧
    (0 < dataCells (.ldB 0) ∧ 0x1000 < (0x0FFE#16).toNat + dataCells (.ldB 0)) ∧
    (0 < dataCells (.stRegs 0) ∧ 0x1000 < (0xFFFF#16).toNat + dataCells (.stRegs 0)) ∧
    (0 < dataCells (.ldRegs 1) ∧ 0x1000 < (0x0FFF#16).toNat + dataCells (.ldRegs 1)) := by decide

theorem witness_StoredCodeIsFetched :
    (let s := (withV 0 0x12#8 1 0x00#8).setI 0x0FFE#16
     ∃ t, Memory.wf s.mem ∧ s.i.toNat + (1 : Nibble).val + 1 ≤ 0x1000 ∧
      exec (.stRegs 1) s = .next t ∧ (1 : Nibble).val = (0 : Nibble).val + 1 ∧ (1 : Nibble) ≤ 1 ∧
      (t.setPc 0x0FFE#16).mem = t.mem ∧
      (t.setPc 0x0FFE#16).pc.toNat = s.i.toNat + (0 : Nibble).val) :=
  ⟨_, Memory.wf_nil, by decide, rfl, rfl, by decide, rfl, rfl⟩

theorem witness_JumpSetsPc : 0x1FFF#16 &&& 0xF000#16 = 0x1000#16 := by decide

/-- The 16th call, the 17th, and a stack pointer that is none. -/
theorem witness_CallPushesAndJumps :
    0x2ABC#16 &&& 0xF000#16 = 0x2000#16 ∧
    (let s := State.reset.setStack 15#8 State.reset.stack
     s.sp.toNat < 16 ∧ (15 : Nibble).val = s.sp.toNat ∧ (0 : Nibble).val ≠ s.sp.toNat) ∧
    (State.reset.setStack 16#8 State.reset.stack).sp.toNat = 16 ∧
    16 < (State.reset.setStack 17#8 State.reset.stack).sp.toNat := by decide

theorem witness_ReturnPopsIntoPc :
    (State.reset.setStack 16#8 State.reset.stack).sp.toNat = (15 : Nibble).val + 1 ∧
    State.reset.sp.toNat = 0 ∧
    16 < (State.reset.setStack 17#8 State.reset.stack).sp.toNat := by decide

theorem witness_CallThenReturnComesBack :
    (State.reset.setStack 15#8 State.reset.stack).sp.toNat < 16 := by decide

theorem witness_SkipsOnImmediate :
    0x3A42#16 &&& 0xF000#16 = 0x3000#16 ∧ 0x4A42#16 &&& 0xF000#16 = 0x4000#16 ∧
    State.reset.reg 15 = 0x00#8 ∧ State.reset.reg 15 ≠ 0x01#8 := by decide

theorem witness_SkipsOnRegisters :
    0x5120#16 &&& 0xF00F#16 = 0x5000#16 ∧ 0x9120#16 &&& 0xF00F#16 = 0x9000#16 ∧
    (withV 1 7#8 2 7#8).reg 1 = (withV 1 7#8 2 7#8).reg 2 ∧
    (withV 1 7#8 2 8#8).reg 1 ≠ (withV 1 7#8 2 8#8).reg 2 := by decide

theorem witness_JumpWithOffsetAddsTheRegister :
    0xBFFF#16 &&& 0xF000#16 = 0xB000#16 ∧ State.reset.params.jumpOffset = .vx ∧
    { State.reset with params := { Config.hardware with jumpOffset := .v0 } }.params.jumpOffset =
      .v0 := by decide

theorem witness_SelfJumpRunsForever :
    (let s := readyAt 0xFFE#16 [0x1F#8, 0xFE#8]
     s.Ready ∧ s.pc = zext16 0xFFE#12 ∧ (0xFFE#12).toNat ≤ 0xFFE ∧
      decodeWord s.fetchWord = some (.jp 0xFFE#12)) :=
  ⟨readyAt_ready _ _, by decide, by decide, by decide⟩

/-- Two registers neither of which is the other, nor `VF`; a bit of a byte. -/
theorem witness_RegisterLoads :
    0x6AFF#16 &&& 0xF000#16 = 0x6000#16 ∧ 0x8120#16 &&& 0xF00F#16 = 0x8000#16 ∧
    (0 : Nibble) ≠ 1 := by decide

theorem witness_BitwiseOperations : 7 < 8 ∧ (0 : Nibble) ≠ 15 := by decide

theorem witness_AddImmediateWrapsWithoutFlag : (15 : Nibble) ≠ 14 := by decide

theorem witness_AddSetsCarry : (14 : Nibble) ≠ 15 ∧ (0 : Nibble) ≠ 14 ∧ (0 : Nibble) ≠ 15 := by decide

theorem witness_SubtractionsSetNotBorrow :
    (14 : Nibble) ≠ 15 ∧ (0 : Nibble) ≠ 14 ∧ (0 : Nibble) ≠ 15 := by decide

theorem witness_ShiftsTakeVxAndSetTheBitOut :
    (14 : Nibble) ≠ 15 ∧ (0 : Nibble) ≠ 14 ∧ (0 : Nibble) ≠ 15 := by decide

/-- A flag writer and an instruction that leaves `VF` alone. -/
theorem witness_FlagWritersAlwaysWriteVf :
    (∃ t, exec (.drw 0 0 0) State.reset = .next t ∧ State.reset.status = .running ∧
      t.status = .running) ∧
    (∃ t, exec (.addImm 14 1#8) State.reset = .next t ∧ t.status = .running ∧
      vf ∉ (footprint (.addImm 14 1#8)).regs) :=
  ⟨⟨_, rfl, rfl, rfl⟩, ⟨_, rfl, rfl, by decide⟩⟩

theorem witness_LoadIndexImmediate : 0xAFFF#16 &&& 0xF000#16 = 0xA000#16 := by decide

theorem witness_AddIndexFlagsPastMemory : (0 : Nibble) ≠ 15 := by decide

/-- The highest digit, and the lowest value above it under each setting. -/
theorem witness_LoadGlyphAddress :
    ((State.reset.setV 3 0x0F#8).reg 3).toNat ≤ 0x0F ∧
    { State.reset with params := { Config.hardware with highDigit := .mask } }.params.highDigit =
      .mask ∧
    0x0F < ((State.reset.setV 3 0x10#8).reg 3).toNat ∧
    (State.reset.setV 3 0x10#8).params.highDigit = .refuse := by decide

theorem witness_StoreDecimalDigits :
    (let s := State.reset.setI 0x0FFD#16
     Memory.wf s.mem ∧ s.i.toNat + 3 ≤ 0x1000 ∧ ∀ k, k < 3 → inFont (s.i.toNat + k) = false) ∧
    (let s := { State.reset with i := 0x0050#16, params := { Config.hardware with fontWrite := .allow } }
     Memory.wf s.mem ∧ s.i.toNat + 3 ≤ 0x1000 ∧ s.params.fontWrite = .allow) := by
  refine ⟨⟨Memory.wf_nil, by decide, by decide⟩, Memory.wf_nil, by decide, rfl⟩

theorem witness_StoreRegisters :
    (let s := State.reset.setI 0x0FF0#16
     Memory.wf s.mem ∧ s.i.toNat + (15 : Nibble).val + 1 ≤ 0x1000 ∧
      (∀ k, k ≤ (15 : Nibble).val → inFont (s.i.toNat + k) = false) ∧ (15 : Nibble) ≤ 15) := by
  refine ⟨Memory.wf_nil, by decide, ?_, by decide⟩
  intro k hk
  simp only [inFont, Config.fontBase, Bool.and_eq_false_imp, decide_eq_true_eq, decide_eq_false_iff_not]
  change 80 ≤ 0xFF0 + k → ¬ 0xFF0 + k < 80 + 80
  omega

theorem witness_LoadRegisters :
    (State.reset.setI 0x0FFF#16).i.toNat + (0 : Nibble).val + 1 ≤ 0x1000 ∧ (0 : Nibble) ≤ 0 ∧
      (0 : Nibble) < 1 := by decide

theorem witness_StoreThenLoadRestoresRegisters :
    (let s := (withV 0 0x11#8 1 0x22#8).setI 0x0FFE#16
     ∃ t, Memory.wf s.mem ∧ s.i.toNat + (1 : Nibble).val + 1 ≤ 0x1000 ∧
      exec (.stRegs 1) s = .next t ∧ (t.setV 0 0#8).mem = t.mem ∧ (t.setV 0 0#8).i = t.i) :=
  ⟨_, Memory.wf_nil, by decide, rfl, rfl, rfl⟩

theorem witness_ClearDisplay :
    0x00E0#16 &&& 0xFFFF#16 = 0x00E0#16 ∧
    ∃ t, deliver (.init [0x12#8, 0x00#8] 0x200#16) (withPixel 0 0 State.reset) = .next t :=
  ⟨by decide, _, rfl⟩

/-- An empty sprite with `I` far out; a one-row sprite at the last cell, whose bit 7 lands on the
origin, set or clear before, and on no pixel of row 1. -/
theorem witness_DrawXorsTheSprite :
    (0 : Nibble).val = 0 ∧
    (let s := (withMem 0xFFF [0x80#8] State.reset).setI 0x0FFF#16
     s.i.toNat + (1 : Nibble).val ≤ 0x1000 ∧ SpriteHits s (s.reg 0) (s.reg 1) 1 0 0 ∧
      ¬ SpriteHits s (s.reg 0) (s.reg 1) 1 1 0 ∧ s.pixel 0 0 = false ∧
      (withPixel 0 0 s).pixel 0 0 = true) := by
  refine ⟨rfl, by decide, ⟨0, 0, by decide, by decide, by decide, by decide, by decide⟩, ?_, by decide,
    by decide⟩
  rintro ⟨r, c, hr, -, -, hy, -⟩
  have h0 : r = 0 := Nat.lt_one_iff.1 hr
  subst h0
  exact absurd hy (by decide)

theorem witness_DrawTwiceRestoresTheDisplay :
    (let s := (withMem 0xFFF [0x80#8] State.reset).setI 0x0FFF#16
     ∃ t, s.i.toNat + (1 : Nibble).val ≤ 0x1000 ∧ exec (.drw 0 1 1) s = .next t ∧
      (t.setDt 1#8).fb = t.fb ∧ (t.setDt 1#8).mem = t.mem ∧ (t.setDt 1#8).i = t.i ∧
      (t.setDt 1#8).reg 0 = s.reg 0 ∧ (t.setDt 1#8).reg 1 = s.reg 1) :=
  ⟨_, by decide, rfl, rfl, rfl, rfl, rfl, rfl⟩

theorem witness_ReadDelayTimer : 0xFF07#16 &&& 0xF0FF#16 = 0xF007#16 ∧ (0 : Nibble) ≠ 15 := by decide

theorem witness_SkipsOnKey :
    (let s := (State.reset.setV 2 0x0F#8).setKeys (keysDown [15])
     (s.reg 2).toNat ≤ 0x0F ∧ (15 : Nibble).val = (s.reg 2).toNat % 16 ∧
      s.keys[(15 : Nibble)] = true ∧ State.reset.keys[(15 : Nibble)] = false) ∧
    { State.reset with params := { Config.hardware with highDigit := .mask } }.params.highDigit =
      .mask ∧
    0x0F < ((State.reset.setV 2 0x10#8).reg 2).toNat ∧
    (State.reset.setV 2 0x10#8).params.highDigit = .refuse := by decide

theorem witness_RandomIsMasked :
    { State.reset with rndFeed := [0xA7#8] }.rndFeed = 0xA7#8 :: [] ∧ State.reset.rndFeed = [] ∧
    (0x0F#8).getLsbD 4 = false ∧ (0 : Nibble) ≠ 3 := by decide

theorem witness_EveryInstructionKeepsTheRest :
    ∃ t, exec (.ldRegs 15) (State.reset.setI 0x0FF0#16) = .next t := ⟨_, rfl⟩

/-- An error of each of the three shapes. -/
theorem witness_ErrorsChangeOnlyStatus :
    (∃ t, exec .ret State.reset = .next t ∧ t.status ≠ State.reset.status) ∧
    (let s := State.reset.setStack 16#8 State.reset.stack
     ∃ t, exec (.call 0) s = .next t ∧ t.status ≠ s.status) ∧
    (let s := State.reset.setI 0x1000#16
     ∃ t, exec (.drw 0 0 1) s = .next t ∧ t.status ≠ s.status) :=
  ⟨⟨_, rfl, by decide⟩, ⟨_, rfl, by decide⟩, ⟨_, rfl, by decide⟩⟩

theorem witness_StepNeverTicks :
    (let s := (readyAt 0x200#16 [0xF5#8, 0x15#8]).setV 5 1#8
     ∃ t, deliver .step s = .next t ∧ t.dt ≠ s.dt) ∧
    (let s := (readyAt 0x200#16 [0xF5#8, 0x18#8]).setV 5 1#8
     ∃ t, deliver .step s = .next t ∧ t.st ≠ s.st) :=
  ⟨⟨_, rfl, by decide⟩, ⟨_, rfl, by decide⟩⟩

/-- The three outcomes. -/
theorem witness_NoInstructionReadsTheSoundTimer :
    (∃ t, exec (.ldStVx 0) State.reset = .next t) ∧
    (∃ f, exec .ret (State.reset.setStack 17#8 State.reset.stack) = .fault f) ∧
    ∃ r, exec (.ldF 0) (State.reset.setV 0 0x10#8) = .refused r :=
  ⟨⟨_, rfl⟩, ⟨_, rfl⟩, ⟨_, rfl⟩⟩

theorem witness_StackErrorsAreThoseOfCallAndReturn :
    (let s := State.reset.setStack 16#8 State.reset.stack
     s.sp.toNat = 16 ∧ s.status = .running ∧
      ∃ t, exec (.call 0) s = .next t ∧ t.status = .halted .stackOverflow) ∧
    (State.reset.sp.toNat = 0 ∧
      ∃ t, exec .ret State.reset = .next t ∧ t.status = .halted .stackUnderflow) :=
  ⟨⟨rfl, rfl, _, rfl, rfl⟩, rfl, _, rfl, rfl⟩

/-- A state inside a subroutine, with a store done and an event pending. -/
def inSubroutine : State :=
  { (readyAt 0xFFE#16 [0x00#8, 0xEE#8]).setStack 1#8 (Vector.replicate 16 0x1000#16) with
    hostEvents := [.step] }

theorem inSubroutine_inv : inSubroutine.Inv where
  memWf := by decide
  spLegal := by decide
  liveEntries := by decide
  pcBound := by decide
  fontIntact := fun _ a ha => by
    have h : a ≠ 0xFFF := by rintro rfl; exact absurd ha (by decide)
    exact (Memory.read_write_ne _ _ h).trans rfl
  haltedNotWaiting := fun _ h => nomatch h
  errorExplained := fun _ h => nomatch h

theorem witness_EveryStepKeepsTheInvariant :
    inSubroutine.Inv ∧ ∃ t, step inSubroutine = .next t ∧ t.pc = 0x1000#16 :=
  ⟨inSubroutine_inv, _, rfl, rfl⟩

theorem witness_NoFaultUnderTheInvariant : inSubroutine.Inv := inSubroutine_inv

/-- A refusal of each of the three shapes. -/
theorem witness_RefusalsAreTheSpecs :
    (∃ r, step (State.reset.setHostEvents [.init [] 0x1000#16]) = .refused r) ∧
    (∃ r, step ((readyAt 0x200#16 [0xE2#8, 0x9E#8]).setV 2 0x10#8) = .refused r) ∧
    ∃ r, step ((readyAt 0x200#16 [0xFF#8, 0x55#8]).setI 0x0041#16) = .refused r :=
  ⟨⟨_, rfl⟩, ⟨_, rfl⟩, ⟨_, rfl⟩⟩

end Sys2Proof.Tests
end

section
/-! PROOFS. Refusals: which shared operation, instruction or event answers `.refused`, and why (R8). -/

namespace Sys2Proof.Machine

/-! ## The shared operations -/

/-- R53: a store is refused exactly when it is in range and a target cell lies in a font that refuses
stores. -/
theorem storeAtI_eq_refused {bs : List Byte} {s : State} {r : Refusal} :
    storeAtI bs s = .refused r ↔
      s.params.fontWrite = .refuse ∧ s.i.toNat + bs.length ≤ 0x1000 ∧
        (∃ k, k < bs.length ∧ inFont (s.i.toNat + k) = true) ∧ r = .fontStore s.i := by
  constructor
  · intro h
    obtain ⟨a, -, he⟩ | ⟨hc, hp, ht, he⟩ | ⟨-, -, he⟩ := storeAtI_cases bs s
    · simp [he] at h
    · obtain ⟨k, hk, hf⟩ := touchesFont_eq_true.1 ht
      have hrange := checkRange_eq_none.1 hc
      have hr : r = .fontStore s.i := by simpa [he, eq_comm] using h
      exact ⟨hp, by omega, ⟨k, hk, hf⟩, hr⟩
    · simp [he] at h
  · rintro ⟨hp, hrange, hfont, rfl⟩
    simp [storeAtI, checkRange_eq_none.2 (.inr hrange), hp, touchesFont_eq_true.2 hfont]

theorem loadAtI_ne_refused (n : Nat) (s : State) (r : Refusal) : loadAtI n s ≠ .refused r := by
  obtain ⟨a, -, he⟩ | ⟨-, he⟩ := loadAtI_cases n s <;> simp [he]

theorem callTo_ne_refused (target : Word) (s : State) (r : Refusal) :
    callTo target s ≠ .refused r := by
  obtain h | h | h := lt_trichotomy s.sp.toNat 16
  · simp [callTo_push target h]
  · simp [callTo_overflow target h]
  · simp [callTo_illegal target h]

theorem returnFrom_ne_refused (s : State) (r : Refusal) : returnFrom s ≠ .refused r := by
  obtain h0 | h0 := Nat.eq_zero_or_pos s.sp.toNat
  · simp [returnFrom_underflow h0]
  · obtain h | h := Nat.lt_or_ge 16 s.sp.toNat
    · simp [returnFrom_illegal h]
    · simp [returnFrom_pop h0 h]

theorem execDrw_ne_refused (x y n : Nibble) (s : State) (r : Refusal) :
    execDrw x y n s ≠ .refused r := by
  unfold execDrw
  cases checkRange s.i n.val <;> simp [raise]

/-! ## The instructions -/

/-- The spec's `refuse` of `Ex9E`, `ExA1` and `Fx29` (R132, R160, R161, D12; assumption 8). -/
def RefusesHighDigit (i : Instr) (s : State) (r : Refusal) : Prop :=
  ∃ x, (i = .skp x ∨ i = .sknp x ∨ i = .ldF x) ∧
    s.params.highDigit = .refuse ∧ 0x0F < (s.reg x).toNat ∧ r = .highDigit (s.reg x)

/-- The spec's `refuse` of `Fx33` and `Fx55` (R53, D13; assumption 9). -/
def RefusesFontStore (i : Instr) (s : State) (r : Refusal) : Prop :=
  ∃ x, (i = .ldB x ∨ i = .stRegs x) ∧
    s.params.fontWrite = .refuse ∧ s.i.toNat + dataCells i ≤ 0x1000 ∧
    (∃ k, k < dataCells i ∧ inFont (s.i.toNat + k) = true) ∧ r = .fontStore s.i

theorem exec_digit_eq_refused {i : Instr} {x : Nibble} {s : State} {r : Refusal}
    (hi : i = .skp x ∨ i = .sknp x ∨ i = .ldF x) :
    exec i s = .refused r ↔
      s.params.highDigit = .refuse ∧ 0x0F < (s.reg x).toNat ∧ r = .highDigit (s.reg x) := by
  have hnone : exec i s = .refused r ↔
      digitOf s.params.highDigit (s.reg x) = none ∧ r = .highDigit (s.reg x) := by
    cases hd : digitOf s.params.highDigit (s.reg x) with
    | none =>
      obtain rfl | rfl | rfl := hi <;>
        simp [exec, execSkp, execSknp, execLdF, hd, eq_comm (a := r)]
    | some d =>
      obtain rfl | rfl | rfl := hi <;> simp [exec, execSkp, execSknp, execLdF, skipIf, hd]
  rw [hnone, digitOf_eq_none]
  exact ⟨fun ⟨⟨hv, hp⟩, hr⟩ => ⟨hp, hv, hr⟩, fun ⟨hp, hv, hr⟩ => ⟨⟨hv, hp⟩, hr⟩⟩

theorem exec_store_eq_refused {i : Instr} {x : Nibble} {s : State} {r : Refusal}
    (hi : i = .ldB x ∨ i = .stRegs x) :
    exec i s = .refused r ↔
      s.params.fontWrite = .refuse ∧ s.i.toNat + dataCells i ≤ 0x1000 ∧
        (∃ k, k < dataCells i ∧ inFont (s.i.toNat + k) = true) ∧ r = .fontStore s.i := by
  obtain rfl | rfl := hi
  · exact storeAtI_eq_refused
  · simpa [exec, execStRegs, dataCells] using storeAtI_eq_refused (bs := regsThrough x s)

/-- The five instructions that the spec refuses in some states are the only ones ever refused. -/
theorem exec_eq_refused {i : Instr} {s : State} {r : Refusal} :
    exec i s = .refused r ↔ RefusesHighDigit i s r ∨ RefusesFontStore i s r := by
  constructor
  · intro h
    cases i with
    | skp x => exact .inl ⟨x, by simp, (exec_digit_eq_refused (x := x) (by simp)).1 h⟩
    | sknp x => exact .inl ⟨x, by simp, (exec_digit_eq_refused (x := x) (by simp)).1 h⟩
    | ldF x => exact .inl ⟨x, by simp, (exec_digit_eq_refused (x := x) (by simp)).1 h⟩
    | ldB x => exact .inr ⟨x, by simp, (exec_store_eq_refused (x := x) (by simp)).1 h⟩
    | stRegs x => exact .inr ⟨x, by simp, (exec_store_eq_refused (x := x) (by simp)).1 h⟩
    | call nnn => exact absurd h (callTo_ne_refused _ s r)
    | ret => exact absurd h (returnFrom_ne_refused s r)
    | ldRegs x => exact absurd h (loadAtI_ne_refused _ s r)
    | drw x y n => exact absurd h (execDrw_ne_refused x y n s r)
    | _ => cases h
  · rintro (⟨x, hi, h⟩ | ⟨x, hi, h⟩)
    · exact (exec_digit_eq_refused hi).2 h
    · exact (exec_store_eq_refused hi).2 h

/-! ## The events -/

theorem initEvent_eq_refused {rom : List Byte} {la : Word} {s : State} {r : Refusal} :
    initEvent rom la s = .refused r ↔ initAccepts rom la = false ∧ r = .initPrecondition := by
  cases h : initAccepts rom la <;> simp [initEvent, h, eq_comm]

/-- A `STEP` is refused only by the instruction it executes: neither the halt, nor the key wait, nor
the fetch refuses (R8, R70). -/
theorem stepEvent_refused {s : State} {r : Refusal} (h : stepEvent s = .refused r) :
    s.status = .running ∧ s.wait = none ∧ s.pc.toNat ≤ 0xFFE ∧
      ∃ i, decodeWord s.fetchWord = some i ∧ exec i s = .refused r := by
  obtain he | ⟨hrun, hwait, ⟨a, -, he⟩ | ⟨-, -, he⟩ | ⟨i, hc, hd, he⟩⟩ := stepEvent_cases s
  · simp [he] at h
  · simp [he] at h
  · simp [he] at h
  · have hpc := checkRange_eq_none.1 hc
    exact ⟨hrun, hwait, by omega, i, hd, he ▸ h⟩

/-- A refused step is an `INIT` that R211 excludes or a refused `STEP` event; the state that the event
sees differs from `s` in `hostEvents` alone. -/
theorem step_refused {s : State} {r : Refusal} (h : step s = .refused r) :
    (∃ rom la es, s.hostEvents = .init rom la :: es ∧ initAccepts rom la = false ∧
      r = .initPrecondition) ∨
    ((s.hostEvents = [] ∨ ∃ es, s.hostEvents = .step :: es) ∧
      ∃ es, stepEvent (s.setHostEvents es) = .refused r) := by
  obtain ⟨u, ⟨rfl, hev⟩ | ⟨es, hev, rfl⟩, he⟩ | ⟨es, -, he⟩ | ⟨k, es, -, he⟩ |
    ⟨rom, la, es, hev, he⟩ := step_cases s
  · exact .inr ⟨.inl hev, u.hostEvents, he ▸ h⟩
  · exact .inr ⟨.inr ⟨es, hev⟩, es, he ▸ h⟩
  · simp [he] at h
  · simp [he] at h
  · obtain ⟨hrej, hr⟩ := initEvent_eq_refused.1 (he ▸ h)
    exact .inl ⟨rom, la, es, hev, hrej, hr⟩

/-- Settles O60: of the events only `INIT` and `STEP` can be refused (`step_refused`), and a `STEP`
only by one of the five instructions (`exec_eq_refused`). -/
theorem refusalsAreTheSpecs : Obligations.RefusalsAreTheSpecs := by
  intro s r h
  obtain hinit | ⟨hev, es, hstep⟩ := step_refused h
  · exact .inl hinit
  · obtain ⟨hrun, hwait, hpc, i, hd, hexec⟩ := stepEvent_refused hstep
    refine .inr ⟨hev, hrun, hwait, hpc, ?_⟩
    obtain ⟨x, hi, hdigit⟩ | ⟨x, hi, hstore⟩ := exec_eq_refused.1 hexec
    · exact .inl ⟨x, i, hd, hi, hdigit⟩
    · exact .inr ⟨x, i, hd, hi, hstore⟩

end Sys2Proof.Machine
end

section
/-! PROOFS. The frame of every instruction (R37): what each update of State keeps, what an execution
that answers a next state can do, and the flag in `VF` (R21). -/

namespace Sys2Proof.Machine

/-! ## What each update keeps: one rule per operation, to be chained -/

namespace KeepsAllBut

variable {f : Footprint} {s t : State}

theorem refl (f : Footprint) (s : State) : KeepsAllBut f s s := by
  constructor <;> intros <;> trivial

theorem setPc (h : KeepsAllBut f s t) (w : Word) : KeepsAllBut f s (t.setPc w) := { h with }

theorem advance (h : KeepsAllBut f s t) : KeepsAllBut f s t.advance := h.setPc _

theorem setStatus (h : KeepsAllBut f s t) (e : Status) : KeepsAllBut f s (t.setStatus e) :=
  { h with }

theorem setV (h : KeepsAllBut f s t) {x : Nibble} (b : Byte) (hx : x ∈ f.regs) :
    KeepsAllBut f s (t.setV x b) :=
  { h with
    regs := fun r hr => by
      have hne : r ≠ x := fun hrx => hr (hrx ▸ hx)
      simpa [hne] using h.regs r hr }

theorem setRegs (h : KeepsAllBut f s t) {u : Vector Byte 16}
    (hu : ∀ r : Nibble, r ∉ f.regs → u[r] = s.reg r) : KeepsAllBut f s (t.setRegs u) :=
  { h with regs := hu }

theorem setI (h : KeepsAllBut f s t) (w : Word) (hi : f.i = true) : KeepsAllBut f s (t.setI w) :=
  { h with i := by simp [hi] }

theorem setStack (h : KeepsAllBut f s t) (p : Byte) {k : Vector Word 16} (hsp : f.sp = true)
    (hk : f.stack = false → k = s.stack) : KeepsAllBut f s (t.setStack p k) :=
  { h with sp := by simp [hsp], stack := hk }

theorem setDt (h : KeepsAllBut f s t) (b : Byte) (hd : f.dt = true) : KeepsAllBut f s (t.setDt b) :=
  { h with dt := by simp [hd] }

theorem setSt (h : KeepsAllBut f s t) (b : Byte) (hst : f.st = true) : KeepsAllBut f s (t.setSt b) :=
  { h with st := by simp [hst] }

theorem setMem (h : KeepsAllBut f s t) {m : Memory}
    (hm : ∀ a, ¬ (s.i.toNat ≤ a ∧ a < s.i.toNat + f.cells) → m.read a = s.byte a) :
    KeepsAllBut f s (t.setMem m) :=
  { h with mem := hm }

theorem setFb (h : KeepsAllBut f s t) (d : Display) (hd : f.fb = true) :
    KeepsAllBut f s (t.setFb d) :=
  { h with fb := by simp [hd] }

theorem setWait (h : KeepsAllBut f s t) (w : Option Nibble) (hw : f.wait = true) :
    KeepsAllBut f s (t.setWait w) :=
  { h with wait := by simp [hw] }

theorem consumeRandom (h : KeepsAllBut f s t) (hr : f.random = true) :
    KeepsAllBut f s t.consumeRandom :=
  { h with random := by simp [hr] }

end KeepsAllBut

/-! ## What an execution can do -/

/-- The condition under which an instruction raises an error (R184, R185, R187). -/
def Raises (i : Instr) (s : State) : HaltError → Prop
  | .invalidOpcode _ _ => False
  | .stackOverflow => s.sp.toNat = 16 ∧ ∃ nnn, i = .call nnn
  | .stackUnderflow => s.sp.toNat = 0 ∧ i = .ret
  | .memoryOutOfBounds a => checkRange s.i (dataCells i) = some a

/-- `PC`, `SP`, the stack, Memory and `status` are as before: what an instruction does before its
`PC` advance, if it neither stores nor touches the stack. -/
structure SameControl (s t : State) : Prop where
  pc : t.pc = s.pc := by rfl
  sp : t.sp = s.sp := by rfl
  stack : t.stack = s.stack := by rfl
  mem : t.mem = s.mem := by rfl
  status : t.status = s.status := by rfl

/-- The ways in which an execution of `i` in `s` can answer a next state, one per shared operation. -/
inductive Executes (i : Instr) (s : State) : State → Prop
  /-- An error (R181). -/
  | raised {e : HaltError} (h : Raises i s e) : Executes i s (s.setStatus (.halted e))
  /-- `2nnn` (R101). -/
  | called {nnn : Addr12} (hi : i = .call nnn) (h : s.sp.toNat < 16) :
    Executes i s
      ((s.setStack (s.sp + 1#8) (s.stack.set s.sp.toNat (s.pc + 2#16))).setPc (zext16 nnn))
  /-- `00EE` (R102). -/
  | returned (hi : i = .ret) (h0 : 0 < s.sp.toNat) (h : s.sp.toNat - 1 < 16) :
    Executes i s ((s.setStack (s.sp - 1#8) s.stack).setPc (s.stack[s.sp.toNat - 1]))
  /-- `Fx33` and `Fx55` (R53, R54): in range, and no cell of a font that refuses stores. -/
  | stored {bs : List Byte} (hcells : (footprint i).cells = bs.length)
    (hrange : s.i.toNat + bs.length ≤ Config.memSize)
    (hfont : s.params.fontWrite = .refuse → ∀ k, k < bs.length → inFont (s.i.toNat + k) = false) :
    Executes i s (s.setMem (Memory.writeBytes s.mem s.i.toNat bs)).advance
  /-- A skip instruction (R71). -/
  | skipped (c : Bool) : Executes i s (s.setPc (s.pc + if c then 4#16 else 2#16))
  /-- `1nnn` and `Bnnn` (R100, R107). -/
  | jumped {w : Word} (hw : w.toNat ≤ 0x10FE) : Executes i s (s.setPc w)
  /-- Every other instruction: its own writes, then the `PC` advance (R71). -/
  | advanced {u : State} (hkeeps : KeepsAllBut (footprint i) s u) (hsame : SameControl s u) :
    Executes i s u.advance

namespace Executes

variable {i : Instr} {s t : State}

theorem of_callTo {nnn : Addr12} (h : callTo (zext16 nnn) s = .next t) :
    Executes (.call nnn) s t := by
  obtain hlt | heq | hgt := lt_trichotomy s.sp.toNat 16
  · rw [callTo_push _ hlt] at h
    cases h
    exact .called rfl hlt
  · rw [callTo_overflow _ heq] at h
    cases h
    exact .raised ⟨heq, nnn, rfl⟩
  · rw [callTo_illegal _ hgt] at h
    cases h

theorem of_returnFrom (h : returnFrom s = .next t) : Executes .ret s t := by
  obtain h0 | h0 := Nat.eq_zero_or_pos s.sp.toNat
  · rw [returnFrom_underflow h0] at h
    cases h
    exact .raised ⟨h0, rfl⟩
  · obtain hgt | hle := Nat.lt_or_ge 16 s.sp.toNat
    · rw [returnFrom_illegal hgt] at h
      cases h
    · rw [returnFrom_pop h0 hle] at h
      cases h
      exact .returned rfl h0 _

theorem of_storeAtI {bs : List Byte} (hpos : 0 < bs.length) (hdata : dataCells i = bs.length)
    (hcells : (footprint i).cells = bs.length) (h : storeAtI bs s = .next t) :
    Executes i s t := by
  obtain ⟨a, hc, he⟩ | ⟨-, -, -, he⟩ | ⟨hc, hfont, he⟩ := storeAtI_cases bs s <;> rw [he] at h <;>
    cases h
  · exact .raised (e := .memoryOutOfBounds a) (by rw [Raises, hdata, hc])
  · have hrange : s.i.toNat + bs.length ≤ Config.memSize :=
      (checkRange_eq_none.1 hc).resolve_left hpos.ne'
    refine .stored hcells hrange fun hp => touchesFont_eq_false.1 (hfont.resolve_left ?_)
    simp [hp]

theorem of_ldRegs {x : Nibble} (h : loadAtI (x.val + 1) s = .next t) :
    Executes (.ldRegs x) s t := by
  obtain ⟨a, hc, he⟩ | ⟨-, he⟩ := loadAtI_cases (x.val + 1) s <;> rw [he] at h <;> cases h
  · exact .raised (e := .memoryOutOfBounds a) hc
  · have hsame : SameControl s (s.setRegs (loadedRegs (x.val + 1) s)) := {}
    refine .advanced ((KeepsAllBut.refl _ s).setRegs fun r hr => ?_) hsame
    have habove : ¬ r.val < x.val + 1 := by
      simp only [footprint, List.mem_filter, List.mem_finRange, true_and, decide_eq_true_eq,
        Fin.le_def] at hr
      omega
    rw [loadedRegs_get, if_neg habove]

theorem of_drw {x y n : Nibble} (h : execDrw x y n s = .next t) : Executes (.drw x y n) s t := by
  unfold execDrw at h
  cases hc : checkRange s.i n.val <;> rw [hc] at h <;> cases h
  case none =>
    exact .advanced (((KeepsAllBut.refl _ s).setFb _ rfl).setV _ (by simp [footprint]))
      {}
  case some a => exact .raised (e := .memoryOutOfBounds a) hc

theorem of_ldF {x : Nibble} (h : execLdF x s = .next t) : Executes (.ldF x) s t := by
  unfold execLdF at h
  cases hd : digitOf s.params.highDigit (s.reg x) <;> rw [hd] at h <;> cases h
  exact .advanced ((KeepsAllBut.refl _ s).setI _ rfl) {}

theorem of_skipIf {c : Bool} (h : skipIf c s = .next t) : Executes i s t := by
  cases h
  exact .skipped c

theorem of_skp {x : Nibble} (h : execSkp x s = .next t) : Executes i s t := by
  unfold execSkp at h
  cases hd : digitOf s.params.highDigit (s.reg x) <;> rw [hd] at h
  · cases h
  · exact of_skipIf h

theorem of_sknp {x : Nibble} (h : execSknp x s = .next t) : Executes i s t := by
  unfold execSknp at h
  cases hd : digitOf s.params.highDigit (s.reg x) <;> rw [hd] at h
  · cases h
  · exact of_skipIf h

theorem of_jpOff {x : Nibble} {nnn : Addr12} (h : execJpOff x nnn s = .next t) :
    Executes i s t := by
  cases h
  refine .jumped ?_
  have hoffset := (s.reg (offsetReg s.params.jumpOffset x)).isLt
  bv_omega

theorem of_resultOnly {x : Nibble} {r : Byte} (hx : x ∈ (footprint i).regs)
    (h : resultOnly x r s = .next t) : Executes i s t := by
  cases h
  exact .advanced ((KeepsAllBut.refl _ s).setV r hx) {}

theorem of_resultThenFlag {x : Nibble} {r : Byte} {f : Bool} (hx : x ∈ (footprint i).regs)
    (hvf : vf ∈ (footprint i).regs) (h : resultThenFlag x r f s = .next t) : Executes i s t := by
  cases h
  exact .advanced (((KeepsAllBut.refl _ s).setV r hx).setV _ hvf) {}

end Executes

/-- Every execution that answers a next state is one of the ways of `Executes`. -/
theorem executes_of_exec {i : Instr} {s t : State} (h : exec i s = .next t) : Executes i s t := by
  cases i with
  | ret => exact .of_returnFrom h
  | call nnn => exact .of_callTo h
  | jp nnn =>
    cases h
    exact .jumped (by have := nnn.isLt; bv_omega)
  | jpOff x nnn => exact .of_jpOff h
  | seImm x kk | sneImm x kk => exact .of_skipIf h
  | seReg x y | sneReg x y => exact .of_skipIf h
  | skp x => exact .of_skp h
  | sknp x => exact .of_sknp h
  | ldImm x kk | addImm x kk => exact .of_resultOnly (by simp [footprint]) h
  | ldReg x y | orReg x y | andReg x y | xorReg x y =>
    exact .of_resultOnly (by simp [footprint]) h
  | ldVxDt x => exact .of_resultOnly (r := s.dt) (by simp [footprint]) h
  | addReg x y | sub x y | shr x y | subn x y | shl x y =>
    exact .of_resultThenFlag (by simp [footprint]) (by simp [footprint]) h
  | rnd x kk =>
    cases h
    exact .advanced (((KeepsAllBut.refl _ s).setV _ (by simp [footprint])).consumeRandom rfl)
      {}
  | addI x =>
    cases h
    exact .advanced (((KeepsAllBut.refl _ s).setI _ rfl).setV _ (by simp [footprint]))
      {}
  | cls =>
    cases h
    exact .advanced ((KeepsAllBut.refl _ s).setFb _ rfl) {}
  | ldI nnn =>
    cases h
    exact .advanced ((KeepsAllBut.refl _ s).setI _ rfl) {}
  | ldVxK x =>
    cases h
    exact .advanced ((KeepsAllBut.refl _ s).setWait _ rfl) {}
  | ldDtVx x =>
    cases h
    exact .advanced ((KeepsAllBut.refl _ s).setDt _ rfl) {}
  | ldStVx x =>
    cases h
    exact .advanced ((KeepsAllBut.refl _ s).setSt _ rfl) {}
  | ldF x => exact .of_ldF h
  | drw x y n => exact .of_drw h
  | ldB x => exact .of_storeAtI (by simp) rfl rfl h
  | stRegs x =>
    exact .of_storeAtI (by simp) (by simp [dataCells]) (by simp [footprint]) h
  | ldRegs x => exact .of_ldRegs h

/-- Settles O52: each way to execute is a chain of updates that the footprint lists. -/
theorem everyInstructionKeepsTheRest : Obligations.EveryInstructionKeepsTheRest := by
  intro i s t h
  have hs := KeepsAllBut.refl (footprint i) s
  cases executes_of_exec h with
  | raised => exact hs.setStatus _
  | called hi => subst hi; exact (hs.setStack _ rfl nofun).setPc _
  | returned hi => subst hi; exact (hs.setStack _ rfl fun _ => rfl).setPc _
  | stored hcells =>
    exact (hs.setMem fun a ha => Memory.read_writeBytes_out s.mem _ _ (hcells ▸ ha)).advance
  | skipped => exact hs.setPc _
  | jumped => exact hs.setPc _
  | advanced hkeeps => exact hkeeps.advance

/-! ## The flag writers (R21) -/

/-- `VF` holds a flag. -/
def State.FlagInVf (s : State) : Prop := s.reg vf = 0#8 ∨ s.reg vf = 1#8

/-- A flag written to `VF` is still there after the `PC` advance. -/
theorem flagInVf_setV_advance (s : State) (f : Bool) :
    (s.setV vf (flagByte f)).advance.FlagInVf := by
  cases f <;> simp [State.FlagInVf]

theorem flagInVf_of_resultThenFlag {x : Nibble} {r : Byte} {f : Bool} {s t : State}
    (h : resultThenFlag x r f s = .next t) : t.FlagInVf := by
  cases h
  exact flagInVf_setV_advance _ f

theorem flagInVf_of_execDrw {x y n : Nibble} {s t : State} (hrun : t.status = .running)
    (h : execDrw x y n s = .next t) : t.FlagInVf := by
  unfold execDrw at h
  cases hc : checkRange s.i n.val <;> rw [hc] at h <;> cases h
  case none => exact flagInVf_setV_advance _ _
  case some => simp at hrun

/-- Settles O36: the five of `resultThenFlag`, `Fx1E` and `Dxyn` write a flag last, and the frame (O52)
gives the rest. -/
theorem flagWritersAlwaysWriteVf : Obligations.FlagWritersAlwaysWriteVf := by
  intro i s t _ hrun h
  refine ⟨?_, (everyInstructionKeepsTheRest i s t h).regs vf⟩
  rintro ⟨x, y, n, rfl | rfl | rfl | rfl | rfl | rfl | rfl⟩
  iterate 5 exact flagInVf_of_resultThenFlag h
  · cases h
    exact flagInVf_setV_advance _ _
  · exact flagInVf_of_execDrw hrun h

end Sys2Proof.Machine
end

section
/-! PROOFS. The invariant of the machine (R24, R102, R107, R181, R214): every event keeps it, and no
step from it faults. -/

namespace Sys2Proof.Machine

/-! ## What the invariant looks at -/

/-- An error is explained by `PC`, `SP`, `I` and Memory alone. -/
theorem explains_congr {s t : State} (hpc : t.pc = s.pc) (hsp : t.sp = s.sp) (hi : t.i = s.i)
    (hmem : t.mem = s.mem) (e : HaltError) : t.Explains e ↔ s.Explains e := by
  have hfetch : t.fetchWord = s.fetchWord := by
    simp only [State.fetchWord, State.byte, hpc, hmem]
  cases e <;> simp only [State.Explains, hpc, hsp, hi, hfetch]

namespace State.Inv

variable {s t : State}

/-- The invariant of a running core is its first five clauses. -/
theorem of_running (hrun : t.status = .running) (memWf : Memory.wf t.mem)
    (spLegal : t.sp.toNat ≤ 16)
    (liveEntries : ∀ k : Nibble, k.val < t.sp.toNat →
      0x0002 ≤ t.stack[k].toNat ∧ t.stack[k].toNat ≤ 0x1000)
    (pcBound : t.pc.toNat ≤ 0x10FE)
    (fontIntact : t.params.fontWrite = .refuse → ∀ a, inFont a = true → t.byte a = resetByte a) :
    t.Inv where
  memWf := memWf
  spLegal := spLegal
  liveEntries := liveEntries
  pcBound := pcBound
  fontIntact := fontIntact
  haltedNotWaiting := by simp [hrun]
  errorExplained := by simp [hrun]

/-- A running core keeps the invariant while Memory, the stack and the parameters are as before and
`PC` stays in its range. -/
theorem of_running_same (hs : s.Inv) (hrun : t.status = .running) (hpc : t.pc.toNat ≤ 0x10FE)
    (hsp : t.sp = s.sp) (hstack : t.stack = s.stack) (hmem : t.mem = s.mem)
    (hparams : t.params = s.params) : t.Inv := by
  refine of_running hrun (hmem ▸ hs.memWf) (hsp ▸ hs.spLegal) ?_ hpc ?_
  · rw [hsp, hstack]
    exact hs.liveEntries
  · unfold State.byte
    rw [hparams, hmem]
    exact hs.fontIntact

theorem setHostEvents (hs : s.Inv) (es : List HostEvent) : (s.setHostEvents es).Inv :=
  { hs with
    errorExplained := fun e he => (explains_congr rfl rfl rfl rfl e).2 (hs.errorExplained e he) }

/-- Raising keeps the invariant where the state explains the error (R181). -/
theorem setStatus_halted (hs : s.Inv) {e : HaltError} (hw : s.wait = none) (he : s.Explains e) :
    (s.setStatus (.halted e)).Inv :=
  { hs with
    haltedNotWaiting := fun _ _ => hw
    errorExplained := fun e' he' => by
      cases he'
      exact (explains_congr rfl rfl rfl rfl e).2 he }

end State.Inv

/-! ## The font and the stack -/

/-- A write of cells outside the font leaves the font's bytes alone (R53, R214). -/
theorem read_writeBytes_font {m : Memory} {a c : Nat} {bs : List Byte}
    (hout : ∀ k, k < bs.length → inFont (a + k) = false) (hc : inFont c = true) :
    Memory.read (Memory.writeBytes m a bs) c = Memory.read m c := by
  refine Memory.read_writeBytes_out m a bs fun ⟨hle, hlt⟩ => ?_
  have hfree := hout (c - a) (by omega)
  rw [Nat.add_sub_cancel' hle, hc] at hfree
  cases hfree

/-- A push of the return address adds one live entry, the address of the `CALL` plus 2 (R101, R102). -/
theorem liveEntries_push {s : State} (hs : s.Inv) (hpc : s.pc.toNat ≤ 0xFFE) (h : s.sp.toNat < 16)
    (k : Nibble) (hk : k.val < s.sp.toNat + 1) :
    0x0002 ≤ (s.stack.set s.sp.toNat (s.pc + 2#16))[k].toNat ∧
      (s.stack.set s.sp.toNat (s.pc + 2#16))[k].toNat ≤ 0x1000 := by
  obtain hlt | heq := Nat.lt_succ_iff_lt_or_eq.1 hk
  · have hold : (s.stack.set s.sp.toNat (s.pc + 2#16))[k] = s.stack[k] :=
      Vector.getElem_set_ne h k.isLt hlt.ne'
    rw [hold]
    exact hs.liveEntries k hlt
  · have hnew : (s.stack.set s.sp.toNat (s.pc + 2#16))[k] = s.pc + 2#16 := by
      simp [heq]
    rw [hnew]
    bv_omega

/-! ## An execution keeps the invariant -/

/-- What an instruction raises is an error that the state explains (R181, R184 to R187). -/
theorem explains_of_raises {i : Instr} {s : State} {e : HaltError} (hpc : s.pc.toNat ≤ 0xFFE)
    (hd : decodeWord s.fetchWord = some i) (h : Raises i s e) : s.Explains e := by
  cases e with
  | invalidOpcode w a => exact h.elim
  | stackOverflow =>
    obtain ⟨hsp, nnn, rfl⟩ := h
    exact ⟨hpc, hsp, nnn, hd⟩
  | stackUnderflow =>
    obtain ⟨hsp, rfl⟩ := h
    exact ⟨hpc, hsp, hd⟩
  | memoryOutOfBounds a =>
    obtain ⟨hpos, hout, ha⟩ := checkRange_eq_some.1 h
    exact .inr ⟨hpc, by rw [ha]; split <;> omega, i, hd, Nat.pos_of_ne_zero hpos, hout⟩

/-- An instruction that a running, not waiting core has fetched and decoded keeps the invariant. -/
theorem inv_of_executes {i : Instr} {s t : State} (hs : s.Inv) (hrun : s.status = .running)
    (hw : s.wait = none) (hpc : s.pc.toNat ≤ 0xFFE) (hd : decodeWord s.fetchWord = some i)
    (h : Executes i s t) : t.Inv := by
  cases h with
  | raised h => exact hs.setStatus_halted hw (explains_of_raises hpc hd h)
  | @called nnn hi h =>
    have hsp : (s.sp + 1#8).toNat = s.sp.toNat + 1 := by bv_omega
    refine .of_running hrun hs.memWf ?_ (fun k hk => ?_) ?_ hs.fontIntact
    · simp only [State.setPc_sp, State.setStack_sp, hsp]
      omega
    · simp only [State.setPc_sp, State.setStack_sp, hsp] at hk
      exact liveEntries_push hs hpc h k hk
    · have := nnn.isLt
      simp only [State.setPc_pc]
      bv_omega
  | returned hi h0 h =>
    have hsp : (s.sp - 1#8).toNat = s.sp.toNat - 1 := by bv_omega
    have hpopped := hs.liveEntries ⟨s.sp.toNat - 1, h⟩ (Nat.sub_lt h0 Nat.one_pos)
    refine .of_running hrun hs.memWf ?_ (fun k hk => ?_) ?_ hs.fontIntact
    · simp only [State.setPc_sp, State.setStack_sp, hsp]
      omega
    · simp only [State.setPc_sp, State.setStack_sp, hsp] at hk
      exact hs.liveEntries k (by omega)
    · exact hpopped.2.trans (by decide)
  | stored hcells hrange hfont =>
    refine .of_running hrun (Memory.wf_writeBytes hs.memWf _ hrange) hs.spLegal hs.liveEntries ?_ ?_
    · simp only [State.advance_pc, State.setMem_pc]
      bv_omega
    · exact fun hp a ha => (read_writeBytes_font (hfont hp) ha).trans (hs.fontIntact hp a ha)
  | skipped c =>
    refine hs.of_running_same hrun ?_ rfl rfl rfl rfl
    rw [State.setPc_pc]
    split <;> bv_omega
  | jumped hjump => exact hs.of_running_same hrun hjump rfl rfl rfl rfl
  | @advanced u hkeeps hsame =>
    refine hs.of_running_same (hsame.status.trans hrun) ?_ hsame.sp hsame.stack hsame.mem
      hkeeps.params
    simp only [State.advance_pc, hsame.pc]
    bv_omega

/-! ## The events keep the invariant -/

theorem inv_of_stepEvent {s t : State} (hs : s.Inv) (h : stepEvent s = .next t) : t.Inv := by
  obtain he | ⟨hrun, hw, ⟨a, hc, he⟩ | ⟨hc, hd, he⟩ | ⟨i, hc, hd, he⟩⟩ := stepEvent_cases s <;>
    rw [he] at h
  · cases h
    exact hs
  · cases h
    obtain ⟨-, hout, ha⟩ := checkRange_eq_some.1 hc
    refine hs.setStatus_halted hw (.inl ⟨by omega, ?_⟩)
    rw [ha]
    split <;> omega
  · cases h
    have hpc := checkRange_eq_none.1 hc
    exact hs.setStatus_halted hw ⟨rfl, by omega, rfl, hd⟩
  · have hpc := checkRange_eq_none.1 hc
    exact inv_of_executes hs hrun hw (by omega) hd (executes_of_exec h)

theorem inv_tickEvent {s : State} (hs : s.Inv) : (tickEvent s).Inv := by
  cases hstatus : s.status with
  | halted e => rwa [tickEvent_halted hstatus]
  | running =>
    rw [tickEvent_running hstatus]
    exact hs.of_running_same hstatus hs.pcBound rfl rfl rfl rfl

theorem inv_keysEvent {s : State} (hs : s.Inv) (k : Keys) : (keysEvent k s).Inv := by
  cases hstatus : s.status with
  | halted e => rwa [keysEvent_halted k hstatus]
  | running =>
    rw [keysEvent_running k hstatus]
    obtain ⟨x, key, -, -, he⟩ | ⟨-, he⟩ := endWait_cases k s <;> rw [he] <;>
      exact hs.of_running_same hstatus hs.pcBound rfl rfl rfl rfl

/-- `INIT` establishes the invariant, whatever the state was (R210, R211). -/
theorem inv_of_initEvent {rom : List Byte} {la : Word} {s t : State}
    (h : initEvent rom la s = .next t) : t.Inv := by
  unfold initEvent at h
  split at h
  case isFalse => cases h
  case isTrue haccepts =>
    cases h
    obtain ⟨hfits, hla, hfont⟩ := initAccepts_iff.1 haccepts
    refine .of_running rfl (Memory.wf_writeBytes Memory.wf_nil rom hfits) (Nat.zero_le _) nofun ?_ ?_
    · exact hla.trans (by decide)
    · exact fun _ a ha => read_writeBytes_font hfont ha

/-- Settles O57: an event is delivered to a state that meets the invariant, and each of the four keeps
it. -/
theorem everyStepKeepsTheInvariant : Obligations.EveryStepKeepsTheInvariant := by
  intro s t hs h
  obtain ⟨u, hu, he⟩ | ⟨es, -, he⟩ | ⟨k, es, -, he⟩ | ⟨rom, la, es, -, he⟩ := step_cases s <;>
    rw [he] at h
  · obtain ⟨rfl, -⟩ | ⟨es, -, rfl⟩ := hu
    · exact inv_of_stepEvent hs h
    · exact inv_of_stepEvent (hs.setHostEvents es) h
  · cases h
    exact inv_tickEvent (hs.setHostEvents es)
  · cases h
    exact inv_keysEvent (hs.setHostEvents es) k
  · exact inv_of_initEvent h

/-! ## No fault (R24, R34; assumption 11) -/

theorem storeAtI_ne_fault (bs : List Byte) (s : State) (f : Fault) : storeAtI bs s ≠ .fault f := by
  obtain ⟨a, -, he⟩ | ⟨-, -, -, he⟩ | ⟨-, -, he⟩ := storeAtI_cases bs s <;> simp [he]

theorem loadAtI_ne_fault (n : Nat) (s : State) (f : Fault) : loadAtI n s ≠ .fault f := by
  obtain ⟨a, -, he⟩ | ⟨-, he⟩ := loadAtI_cases n s <;> simp [he]

theorem execDrw_ne_fault (x y n : Nibble) (s : State) (f : Fault) :
    execDrw x y n s ≠ .fault f := by
  unfold execDrw
  cases checkRange s.i n.val <;> simp [raise]

theorem exec_digit_ne_fault {i : Instr} {x : Nibble} (hi : i = .skp x ∨ i = .sknp x ∨ i = .ldF x)
    (s : State) (f : Fault) : exec i s ≠ .fault f := by
  cases hd : digitOf s.params.highDigit (s.reg x) <;> obtain rfl | rfl | rfl := hi <;>
    simp [exec, execSkp, execSknp, execLdF, skipIf, hd]

theorem callTo_ne_fault (target : Word) {s : State} (h : s.sp.toNat ≤ 16) (f : Fault) :
    callTo target s ≠ .fault f := by
  obtain hlt | heq := Nat.lt_or_eq_of_le h
  · simp [callTo_push target hlt]
  · simp [callTo_overflow target heq]

theorem returnFrom_ne_fault {s : State} (h : s.sp.toNat ≤ 16) (f : Fault) :
    returnFrom s ≠ .fault f := by
  obtain h0 | h0 := Nat.eq_zero_or_pos s.sp.toNat
  · simp [returnFrom_underflow h0]
  · simp [returnFrom_pop h0 h]

/-- No instruction faults while `SP` is at most 16: only `CALL` and `RET` have a fault at all. -/
theorem exec_ne_fault (i : Instr) {s : State} (hsp : s.sp.toNat ≤ 16) (f : Fault) :
    exec i s ≠ .fault f := by
  intro h
  cases i with
  | call nnn => exact callTo_ne_fault _ hsp f h
  | ret => exact returnFrom_ne_fault hsp f h
  | skp x => exact exec_digit_ne_fault (x := x) (by simp) s f h
  | sknp x => exact exec_digit_ne_fault (x := x) (by simp) s f h
  | ldF x => exact exec_digit_ne_fault (x := x) (by simp) s f h
  | ldB x => exact storeAtI_ne_fault _ s f h
  | stRegs x => exact storeAtI_ne_fault _ s f h
  | ldRegs x => exact loadAtI_ne_fault _ s f h
  | drw x y n => exact execDrw_ne_fault x y n s f h
  | _ => cases h

theorem stepEvent_ne_fault {s : State} (hsp : s.sp.toNat ≤ 16) (f : Fault) :
    stepEvent s ≠ .fault f := by
  obtain he | ⟨-, -, ⟨a, -, he⟩ | ⟨-, -, he⟩ | ⟨i, -, -, he⟩⟩ := stepEvent_cases s <;> rw [he]
  · nofun
  · nofun
  · nofun
  · exact exec_ne_fault i hsp f

theorem initEvent_ne_fault (rom : List Byte) (la : Word) (s : State) (f : Fault) :
    initEvent rom la s ≠ .fault f := by
  cases h : initAccepts rom la <;> simp [initEvent, h]

/-- Settles O59: of the events only a `STEP` could fault, and the invariant bounds `SP`. -/
theorem noFaultUnderTheInvariant : Obligations.NoFaultUnderTheInvariant := by
  intro s f hs
  obtain ⟨u, hu, he⟩ | ⟨es, -, he⟩ | ⟨k, es, -, he⟩ | ⟨rom, la, es, -, he⟩ := step_cases s <;> rw [he]
  · obtain ⟨rfl, -⟩ | ⟨es, -, rfl⟩ := hu
    · exact stepEvent_ne_fault hs.spLegal f
    · exact stepEvent_ne_fault (s := s.setHostEvents es) hs.spLegal f
  · nofun
  · nofun
  · exact initEvent_ne_fault rom la _ f

end Sys2Proof.Machine
end

section
/-! PROOFS. Memory (R50 to R63): one list for each contents, where the data accesses through `I` raise
or are refused, and a store read back by a later fetch. -/

namespace Sys2Proof.Machine

/-! ## One list for each contents (R50; assumption 5) -/

/-- A canonical memory lists exactly the addresses that differ from the reset contents. -/
theorem Memory.mem_iff_read {m : Memory} (hm : Memory.wf m) {a : Nat} {b : Byte} :
    (a, b) ∈ m ↔ Memory.read m a = b ∧ b ≠ resetByte a := by
  induction m with
  | nil => exact ⟨nofun, fun ⟨hread, hne⟩ => absurd hread.symm hne⟩
  | cons c m ih =>
    obtain ⟨a', b'⟩ := c
    rw [List.mem_cons, ih (Memory.wf_tail hm), Memory.read]
    by_cases haddr : a' = a
    · subst haddr
      have htail : Memory.read m a' = resetByte a' := Memory.read_of_lt (Memory.head_lt hm)
      have hlisted : b' ≠ resetByte a' := (hm.2 (a', b') (by simp)).2
      rw [if_pos rfl, htail]
      constructor
      · rintro (h | ⟨h, hne⟩)
        · cases h
          exact ⟨rfl, hlisted⟩
        · exact absurd h.symm hne
      · rintro ⟨rfl, -⟩
        exact .inl rfl
    · have hother : (a, b) ≠ (a', b') := fun h => haddr (congrArg Prod.fst h).symm
      rw [if_neg haddr, or_iff_right hother]

/-- Settles O18: canonical memories that read alike have the same entries (`Memory.mem_iff_read`), and
a strictly rising list is determined by its entries. -/
theorem equalContentsAreEqualMemories : Obligations.EqualContentsAreEqualMemories := by
  intro m m' hm hm' hread
  have hirrefl : Std.Irrefl fun p q : Host.Cell => p.1 < q.1 := ⟨fun p => lt_irrefl p.1⟩
  have hantisymm : Std.Antisymm fun p q : Host.Cell => p.1 < q.1 :=
    ⟨fun _ _ h h' => absurd h' h.asymm⟩
  refine hm.1.eq_of_mem_iff hm'.1 fun ⟨a, b⟩ => ?_
  rw [Memory.mem_iff_read hm, Memory.mem_iff_read hm', hread]

/-! ## Where a data access raises (R54, R187) -/

/-- Past `0xFFF` the check answers the lowest bad address (R54, D19). -/
theorem checkRange_out {a : Word} {n : Nat} (hn : 0 < n) (h : 0x1000 < a.toNat + n) :
    checkRange a n = some (if 0xFFF < a.toNat then a else 0x1000#16) :=
  checkRange_eq_some.2 ⟨hn.ne', h, apply_ite BitVec.toNat _ _ _⟩

theorem storeAtI_raises {bs : List Byte} {s : State} {a : Word}
    (h : checkRange s.i bs.length = some a) :
    storeAtI bs s = .next (s.setStatus (.halted (.memoryOutOfBounds a))) := by
  simp only [storeAtI, h, raise]

theorem loadAtI_raises {n : Nat} {s : State} {a : Word} (h : checkRange s.i n = some a) :
    loadAtI n s = .next (s.setStatus (.halted (.memoryOutOfBounds a))) := by
  simp only [loadAtI, h, raise]

theorem execDrw_raises {x y n : Nibble} {s : State} {a : Word} (h : checkRange s.i n.val = some a) :
    execDrw x y n s = .next (s.setStatus (.halted (.memoryOutOfBounds a))) := by
  simp only [execDrw, h, raise]

/-- Every instruction that accesses cells through `I` checks all of them before it does anything
(R54, R188). -/
theorem exec_raises_outOfBounds {i : Instr} {s : State} {a : Word}
    (h : checkRange s.i (dataCells i) = some a) :
    exec i s = .next (s.setStatus (.halted (.memoryOutOfBounds a))) := by
  cases i with
  | drw x y n => exact execDrw_raises h
  | ldB x => exact storeAtI_raises h
  | stRegs x => exact storeAtI_raises (by rwa [length_regsThrough])
  | ldRegs x => exact loadAtI_raises h
  | _ => exact absurd rfl (checkRange_eq_some.1 h).1

/-- Settles O20: the range check fails (`checkRange_out`), and the access raises what it answers. -/
theorem dataOutOfRangeRaises : Obligations.DataOutOfRangeRaises := fun _ _ hcells hout =>
  ⟨_, exec_raises_outOfBounds (checkRange_out hcells hout), rfl, rfl⟩

/-! ## Where a store completes (R53, R133, R134) -/

/-- The bytes that `Fx33` and `Fx55` store, as many as their data cells. -/
theorem exec_store_eq_storeAtI {i : Instr} {x : Nibble} (hi : i = .ldB x ∨ i = .stRegs x)
    (s : State) : ∃ bs : List Byte, bs.length = dataCells i ∧ exec i s = storeAtI bs s := by
  obtain rfl | rfl := hi
  · exact ⟨bcdDigits (s.reg x), rfl, rfl⟩
  · exact ⟨regsThrough x s, length_regsThrough x s, rfl⟩

/-- Settles O19: the refusal is the one of `exec_store_eq_refused`; under `allow` the font is no
obstacle to `storeAtI_completes`. -/
theorem fontStoresFollowThePolicy : Obligations.FontStoresFollowThePolicy := by
  rintro s i x hi hrange ⟨k, hk, hfont⟩
  constructor
  · intro hrefuse
    exact (exec_store_eq_refused hi).2 ⟨hrefuse, hrange, ⟨k, hk, inFont_eq_true.2 hfont⟩, rfl⟩
  · intro hallow
    obtain ⟨bs, hlen, hexec⟩ := exec_store_eq_storeAtI hi s
    exact ⟨_, hexec.trans (storeAtI_completes (hlen ▸ hrange) (.inl hallow)), rfl, rfl⟩

/-! ## A store read back (R56, R63) -/

/-- A store in range that answers a next state has written its bytes. -/
theorem eq_of_storeAtI_next {bs : List Byte} {s t : State} (hrange : s.i.toNat + bs.length ≤ 0x1000)
    (h : storeAtI bs s = .next t) :
    t = (s.setMem (Memory.writeBytes s.mem s.i.toNat bs)).advance := by
  obtain ⟨a, hc, -⟩ | ⟨-, -, -, he⟩ | ⟨-, -, he⟩ := storeAtI_cases bs s
  · rw [checkRange_eq_none.2 (.inr hrange)] at hc
    cases hc
  · rw [he] at h
    cases h
  · rw [he] at h
    cases h
    rfl

/-- After `Fx55` the cell `I + r` holds `V[r]` (R134). -/
theorem byte_of_stRegs {s t : State} {x r : Nibble} (hm : Memory.wf s.mem)
    (hrange : s.i.toNat + x.val + 1 ≤ 0x1000) (h : exec (.stRegs x) s = .next t) (hr : r ≤ x) :
    t.byte (s.i.toNat + r.val) = s.reg r := by
  have hin : s.i.toNat + (regsThrough x s).length ≤ 0x1000 := by
    rw [length_regsThrough]
    exact hrange
  have hlt : r.val < (regsThrough x s).length := by
    rw [length_regsThrough]
    exact Nat.lt_succ_of_le hr
  rw [eq_of_storeAtI_next hin h, State.byte_advance, State.byte_setMem,
    Memory.read_writeBytes_in hm hin hlt, getElem_regsThrough]

/-- Settles O21: both cells of the fetch hold stored registers (`byte_of_stRegs`). -/
theorem storedCodeIsFetched : Obligations.StoredCodeIsFetched := by
  intro s t u x k k' hm hrange h hnext hk' hmem hpc
  have hk : k ≤ x := le_trans (Fin.le_def.2 (by omega)) hk'
  have hhigh : u.byte u.pc.toNat = s.reg k := by
    rw [hpc, State.byte, hmem]
    exact byte_of_stRegs hm hrange h hk
  have hlow : u.byte (u.pc.toNat + 1) = s.reg k' := by
    rw [hpc, Nat.add_assoc, ← hnext, State.byte, hmem]
    exact byte_of_stRegs hm hrange h hk'
  rw [State.fetchWord, hhigh, hlow]

end Sys2Proof.Machine
end

section
/-! PROOFS. Instructions in a byte stream (R51, R72): the decoder reads back what the encoder wrote. -/

namespace Sys2Proof

/-- The decoder reads back every operand that the formats of R74 hold; the `x` of a `Bnnn` is the top
nibble of its `nnn` (R107). -/
theorem decodeWord_encode {i : Instr} (hi : i.wellFormed = true) : decodeWord (encode i) = some i := by
  cases i with
  | cls | ret => rfl
  | jp nnn | call nnn | ldI nnn => simp [encode, decodeWord]
  | jpOff x nnn =>
    have hx : fieldX (wordNNN 0xB nnn) = x :=
      Fin.ext ((fieldX_wordNNN (by decide) nnn).trans (eq_of_beq hi))
    simp [encode, decodeWord, hx]
  | seImm x kk | sneImm x kk | ldImm x kk | addImm x kk | rnd x kk => simp [encode, decodeWord]
  | seReg x y | sneReg x y => simp [encode, decodeWord]
  | ldReg x y | orReg x y | andReg x y | xorReg x y | addReg x y | sub x y | shr x y | subn x y
  | shl x y => simp [encode, decodeWord, decodeClass8]
  | drw x y n =>
    have hn : fieldN (wordXYN 0xD x y n.val) = n := Fin.ext (fieldN_wordXYN (by decide) n.isLt x y)
    simp [encode, decodeWord, hn]
  | skp x | sknp x => simp [encode, decodeWord, decodeClassE]
  | ldVxDt x | ldVxK x | ldDtVx x | ldStVx x | addI x | ldF x | ldB x | stRegs x | ldRegs x =>
    simp [encode, decodeWord, decodeClassF]

/-- The two bytes of an instruction lead any byte stream to it and to the bytes after it (R51, R72). -/
theorem decodeBytes_encode {i : Instr} (hi : i.wellFormed = true) (rest : List Byte) :
    decodeBytes (hiByte (encode i) :: loByte (encode i) :: rest) = .ok (i, rest) := by
  rw [decodeBytes, wordOfBytes_bytes, decodeWord_encode hi]

theorem tableWord_toNat (w : Word) : tableWord 16 w.toNat = w := by simp [tableWord]

theorem decodeTableWord_encode {i : Instr} (hi : i.wellFormed = true) :
    decodeTableWord 16 (encode i).toNat = some i := by
  rw [decodeTableWord, tableWord_toNat, decodeBytes_encode hi]

/-- The high byte of a word counts 256 times (R51). -/
theorem bytes_toNat (w : Word) : (hiByte w).toNat * 256 + (loByte w).toNat = w.toNat := by
  rw [← wordOfBytes_toNat, wordOfBytes_bytes]

/-- Settles O6: the byte decoder and the table decoder put the two bytes together and read back the
encoded instruction (`decodeWord_encode`); the fetch is `wordOfBytes`. -/
theorem byteStreamsDecodeInOrder : Obligations.ByteStreamsDecodeInOrder := by
  constructor
  · intro i rest hi
    have hdecode := decodeBytes_encode hi rest
    exact ⟨⟨_, _, rfl, bytes_toNat (encode i), hdecode⟩, hdecode, decodeTableWord_encode hi⟩
  · intro s
    exact wordOfBytes_toNat _ _

end Sys2Proof
end

section
/-! PROOFS. The decoder (R72 to R80): what a decoded word says about its fields, the rows of R78, the
invalid words of R80. -/

namespace Sys2Proof

/-- Settles O1: the case split over the instructions is `decodeWord_encode`. -/
theorem decodeOfEncodeIsTheInstruction : Obligations.DecodeOfEncodeIsTheInstruction :=
  fun _ => decodeWord_encode

/-- Settles O5: the decoder evaluated on ten words. -/
theorem sampleWordsDecode : Obligations.SampleWordsDecode := by
  unfold Obligations.SampleWordsDecode
  decide

/-! ## A decoded word is an encoding (R72, R76) -/

theorem fieldClass_lt (w : Word) : fieldClass w < 16 := (w.extractLsb' 12 4).isLt

section

variable {w : Word} {c : Nat} (hc : fieldClass w = c)

include hc

theorem wordNNN_of_class : wordNNN c (fieldNNN w) = w := hc ▸ wordNNN_fields w

theorem wordXKK_of_class : wordXKK c (fieldX w) (fieldKK w) = w := hc ▸ wordXKK_fields w

theorem wordXKK_of_class_kk {k : Byte} (hk : (fieldKK w).toNat = k.toNat) :
    wordXKK c (fieldX w) k = w := by
  rw [← BitVec.eq_of_toNat_eq hk, wordXKK_of_class hc]

theorem wordXYN_of_class_n {n : Nat} (hn : (fieldN w).val = n) :
    wordXYN c (fieldX w) (fieldY w) n = w := by
  rw [← hc, ← hn, wordXYN_fields]

end

/-- The register of a decoded `Bnnn` is the top nibble of its address (R107). -/
theorem wellFormed_jpOff_fields (w : Word) :
    (Instr.jpOff (fieldX w) (fieldNNN w)).wellFormed = true := by
  simp only [Instr.wellFormed, beq_iff_eq, fieldNNN_toNat, fieldX_val]
  omega

theorem encode_of_decodeClass0 {w : Word} {i : Instr} (h : decodeClass0 w = some i) :
    i.wellFormed = true ∧ encode i = w := by
  unfold decodeClass0 at h
  split at h
  case isTrue hw => cases h; exact ⟨rfl, hw.symm⟩
  case isFalse =>
    split at h
    case isTrue hw => cases h; exact ⟨rfl, hw.symm⟩
    case isFalse => cases h

theorem encode_of_decodeClass8 {w : Word} {i : Instr} (hc : fieldClass w = 0x8)
    (h : decodeClass8 w = some i) : i.wellFormed = true ∧ encode i = w := by
  unfold decodeClass8 at h
  split at h <;> cases h <;> rename_i hn <;> exact ⟨rfl, wordXYN_of_class_n hc hn⟩

theorem encode_of_decodeClassE {w : Word} {i : Instr} (hc : fieldClass w = 0xE)
    (h : decodeClassE w = some i) : i.wellFormed = true ∧ encode i = w := by
  unfold decodeClassE at h
  split at h <;> cases h <;> rename_i hk <;> exact ⟨rfl, wordXKK_of_class_kk hc hk⟩

theorem encode_of_decodeClassF {w : Word} {i : Instr} (hc : fieldClass w = 0xF)
    (h : decodeClassF w = some i) : i.wellFormed = true ∧ encode i = w := by
  unfold decodeClassF at h
  split at h <;> cases h <;> rename_i hk <;> exact ⟨rfl, wordXKK_of_class_kk hc hk⟩

/-- Class by class, the fields that the decoder hands out make up the word again; class `c` is the
decoder's branch `c + 1`, and its last branch answers nothing. -/
theorem encode_of_decodeWord {w : Word} {i : Instr} (h : decodeWord w = some i) :
    i.wellFormed = true ∧ encode i = w := by
  unfold decodeWord at h
  split at h
  case h_1 => exact encode_of_decodeClass0 h
  case h_9 hc => exact encode_of_decodeClass8 hc h
  case h_15 hc => exact encode_of_decodeClassE hc h
  case h_16 hc => exact encode_of_decodeClassF hc h
  case h_12 hc => cases h; exact ⟨wellFormed_jpOff_fields w, wordNNN_of_class hc⟩
  case h_14 hc => cases h; exact ⟨rfl, wordXYN_of_class_n hc rfl⟩
  case h_6 hc | h_10 hc =>
    split at h
    case isTrue hn => cases h; exact ⟨rfl, wordXYN_of_class_n hc hn⟩
    case isFalse => cases h
  case h_2 hc | h_3 hc | h_11 hc => cases h; exact ⟨rfl, wordNNN_of_class hc⟩
  case h_4 hc | h_5 hc | h_7 hc | h_8 hc | h_13 hc => cases h; exact ⟨rfl, wordXKK_of_class hc⟩
  case h_17 => cases h

/-- Settles O2: `encode_of_decodeWord`. -/
theorem encodeOfDecodeIsTheWord : Obligations.EncodeOfDecodeIsTheWord :=
  fun _ _ => encode_of_decodeWord

/-! ## The rows of R78 -/

open Laws.EncodeMatchesRow in
/-- The per-instruction laws in the order of the constructors. -/
theorem encode_matches_row (i : Instr) : Statement i :=
  i.casesOn (motive := Statement) cls ret jp call seImm sneImm seReg ldImm addImm ldReg orReg andReg
    xorReg addReg sub shr subn shl sneReg ldI jpOff rnd drw skp sknp ldVxDt ldVxK ldDtVx ldStVx addI
    ldF ldB stRegs ldRegs

theorem rowOf_mem_opcodeRows (i : Instr) : rowOf i ∈ opcodeRows := by
  cases i <;> simp [opcodeRows, rowOf]

theorem class_of_F000 {w v : Word} (h : w &&& 0xF000#16 = v) : fieldClass w = v.toNat / 4096 := by
  rw [← h, and_F000_toNat]; omega

theorem fields_of_F00F {w v : Word} (h : w &&& 0xF00F#16 = v) :
    fieldClass w = v.toNat / 4096 ∧ (fieldN w).val = v.toNat % 16 := by
  rw [← h, and_F00F_toNat]; omega

theorem fields_of_F0FF {w v : Word} (h : w &&& 0xF0FF#16 = v) :
    fieldClass w = v.toNat / 4096 ∧ (fieldKK w).toNat = v.toNat % 256 := by
  rw [← h, and_F0FF_toNat]; omega

/-- A row fixes the class, and where it needs them the low nibble or byte, and these fix the decoder's
branch. -/
theorem decodeWord_of_row {w : Word} {j : Instr} (h : w &&& (rowOf j).mask = (rowOf j).value) :
    ∃ i, decodeWord w = some i ∧ rowOf i = rowOf j := by
  cases j with
  | cls | ret =>
    have hw : w = _ := BitVec.and_allOnes.symm.trans h
    exact ⟨_, hw ▸ rfl, rfl⟩
  | seReg x y | sneReg x y =>
    obtain ⟨hc, hn⟩ := fields_of_F00F h
    simp [decodeWord, hc, hn, rowOf]
  | ldReg x y | orReg x y | andReg x y | xorReg x y | addReg x y | sub x y | shr x y | subn x y
  | shl x y =>
    obtain ⟨hc, hn⟩ := fields_of_F00F h
    simp [decodeWord, decodeClass8, hc, hn, rowOf]
  | skp x | sknp x =>
    obtain ⟨hc, hk⟩ := fields_of_F0FF h
    simp [decodeWord, decodeClassE, hc, hk, rowOf]
  | ldVxDt x | ldVxK x | ldDtVx x | ldStVx x | addI x | ldF x | ldB x | stRegs x | ldRegs x =>
    obtain ⟨hc, hk⟩ := fields_of_F0FF h
    simp [decodeWord, decodeClassF, hc, hk, rowOf]
  | _ =>
    have hc := class_of_F000 h
    simp [decodeWord, hc, rowOf]

/-- Settles O3: a decoded word is the encoding of what it decodes to, which its row matches
(`encode_matches_row`); a word that a row matches decodes by `decodeWord_of_row`. -/
theorem decodeFollowsMaskAndMatch : Obligations.DecodeFollowsMaskAndMatch := by
  intro w
  constructor
  · intro i h
    obtain ⟨-, rfl⟩ := encode_of_decodeWord h
    exact ⟨rowOf_mem_opcodeRows i, encode_matches_row i⟩
  · intro r hr h
    obtain ⟨j, -, rfl⟩ := List.mem_map.1 hr
    exact decodeWord_of_row h

/-! ## The invalid words (R80) -/

theorem decodeClass0_eq_none {w : Word} :
    decodeClass0 w = none ↔ w.toNat ≠ 0x00E0 ∧ w.toNat ≠ 0x00EE := by
  simp [decodeClass0, ← BitVec.toNat_inj, ite_eq_iff]

theorem decodeClass8_eq_none {w : Word} :
    decodeClass8 w = none ↔ w.toNat % 16 ∈ [0x8, 0x9, 0xA, 0xB, 0xC, 0xD, 0xF] := by
  have hlt : w.toNat % 16 < 16 := Nat.mod_lt _ (by decide)
  rw [decodeClass8, fieldN_val]
  generalize w.toNat % 16 = n at hlt ⊢
  interval_cases n <;> simp

theorem decodeClassE_eq_none {w : Word} :
    decodeClassE w = none ↔ w.toNat % 256 ∉ [0x9E, 0xA1] := by
  rw [decodeClassE, fieldKK_toNat]
  split <;> simp_all

theorem decodeClassF_eq_none {w : Word} :
    decodeClassF w = none ↔
      w.toNat % 256 ∉ [0x07, 0x0A, 0x15, 0x18, 0x1E, 0x29, 0x33, 0x55, 0x65] := by
  rw [decodeClassF, fieldKK_toNat]
  split <;> simp_all

/-- Class by class, the words that the decoder rejects are those of the table. -/
theorem decodeWord_eq_none {w : Word} : decodeWord w = none ↔ Machine.InvalidWord w := by
  have hlt := fieldClass_lt w
  rw [Machine.InvalidWord, ← fieldClass_eq, decodeWord]
  generalize fieldClass w = c at hlt ⊢
  interval_cases c <;>
    simp [decodeClass0_eq_none, decodeClass8_eq_none, decodeClassE_eq_none, decodeClassF_eq_none,
      fieldN_val]

end Sys2Proof
end

section
/-! PROOFS. The step of a ready core (R70, R188): the three outcomes of the fetch, and a listed event
(R196). -/

namespace Sys2Proof.Machine

section

variable {s : State}

theorem checkRange_fetch (h : s.pc.toNat ≤ 0xFFE) : checkRange s.pc Config.instrBytes = none :=
  checkRange_eq_none.2 (.inr (by simp; omega))

theorem checkRange_fetch_out (h : 0xFFF ≤ s.pc.toNat) :
    checkRange s.pc Config.instrBytes = some (if s.pc.toNat = 0xFFF then 0x1000#16 else s.pc) := by
  rw [checkRange_out (by decide) (by simp; omega)]
  obtain heq | hlt := h.eq_or_lt
  · simp [← heq]
  · simp [hlt, hlt.ne']

theorem step_fetch_raises (hs : s.Ready) (hpc : 0xFFF ≤ s.pc.toNat) :
    step s = .next (s.setStatus (.halted (.memoryOutOfBounds
      (if s.pc.toNat = 0xFFF then 0x1000#16 else s.pc)))) := by
  simp only [step_ready hs, fetchDecodeExecute, checkRange_fetch_out hpc, raise]

theorem step_decode_raises (hs : s.Ready) (hpc : s.pc.toNat ≤ 0xFFE)
    (h : decodeWord s.fetchWord = none) :
    step s = .next (s.setStatus (.halted (.invalidOpcode s.fetchWord s.pc))) := by
  simp only [step_ready hs, fetchDecodeExecute, checkRange_fetch hpc, h, raise]

theorem step_executes {i : Instr} (hs : s.Ready) (hpc : s.pc.toNat ≤ 0xFFE)
    (h : decodeWord s.fetchWord = some i) : step s = exec i s := by
  simp only [step_ready hs, fetchDecodeExecute, checkRange_fetch hpc, h]

end

/-- Settles O4: the table is `decodeWord_eq_none`, the halt `step_decode_raises`. -/
theorem invalidWordsAreTheTableAndRaise : Obligations.InvalidWordsAreTheTableAndRaise :=
  ⟨fun _ => decodeWord_eq_none, fun _ hs hpc hw =>
    ⟨_, step_decode_raises hs hpc (decodeWord_eq_none.2 hw), rfl, rfl⟩⟩

/-- Settles O7: `step_executes`, as the fetched word is the two bytes at `PC` (R51). -/
theorem stepExecutesTheFetchedInstruction : Obligations.StepExecutesTheFetchedInstruction :=
  ⟨fun _ _ hs hpc h => step_executes hs hpc h, fun _ _ _ h => step_of_event h⟩

/-- Settles O8: from `0xFFF` on the range check of the fetch fails (`checkRange_fetch_out`). -/
theorem fetchOutOfRangeRaises : Obligations.FetchOutOfRangeRaises :=
  fun _ hs hpc => ⟨_, step_fetch_raises hs hpc, rfl, rfl⟩

end Sys2Proof.Machine
end

section
/-! PROOFS. Control flow (R100 to R107): which words decode to a jump, a call or a skip, the skips by
their condition, the call and the return through the stack, and the self-jump. -/

namespace Sys2Proof

/-! ## The words of control flow (R78) -/

section

variable {w : Word}

theorem decodeWord_jp (h : w &&& 0xF000#16 = 0x1000#16) : decodeWord w = some (.jp (fieldNNN w)) := by
  simp [decodeWord, class_of_F000 h]

theorem decodeWord_call (h : w &&& 0xF000#16 = 0x2000#16) :
    decodeWord w = some (.call (fieldNNN w)) := by
  simp [decodeWord, class_of_F000 h]

theorem decodeWord_seImm (h : w &&& 0xF000#16 = 0x3000#16) :
    decodeWord w = some (.seImm (fieldX w) (fieldKK w)) := by
  simp [decodeWord, class_of_F000 h]

theorem decodeWord_sneImm (h : w &&& 0xF000#16 = 0x4000#16) :
    decodeWord w = some (.sneImm (fieldX w) (fieldKK w)) := by
  simp [decodeWord, class_of_F000 h]

theorem decodeWord_seReg (h : w &&& 0xF00F#16 = 0x5000#16) :
    decodeWord w = some (.seReg (fieldX w) (fieldY w)) := by
  obtain ⟨hc, hn⟩ := fields_of_F00F h
  simp [decodeWord, hc, hn]

theorem decodeWord_sneReg (h : w &&& 0xF00F#16 = 0x9000#16) :
    decodeWord w = some (.sneReg (fieldX w) (fieldY w)) := by
  obtain ⟨hc, hn⟩ := fields_of_F00F h
  simp [decodeWord, hc, hn]

theorem decodeWord_jpOff (h : w &&& 0xF000#16 = 0xB000#16) :
    decodeWord w = some (.jpOff (fieldX w) (fieldNNN w)) := by
  simp [decodeWord, class_of_F000 h]

end

end Sys2Proof

namespace Sys2Proof.Machine

/-! ## Jumps (R100, R107) -/

theorem zext16_toNat (nnn : Addr12) : (zext16 nnn).toNat = nnn.toNat :=
  BitVec.toNat_setWidth_of_le (by decide)

theorem exec_jp (nnn : Addr12) (s : State) : exec (.jp nnn) s = .next (s.setPc (zext16 nnn)) := rfl

/-- Settles O22: the pattern is `decodeWord_jp`, the jump `exec_jp`. -/
theorem jumpSetsPc : Obligations.JumpSetsPc :=
  ⟨fun _ => decodeWord_jp, fun nnn s => ⟨_, exec_jp nnn s, zext16_toNat nnn, rfl, fun _ => rfl⟩⟩

/-- The sum of a 12-bit address and a byte fits a word (D6). -/
theorem jumpOffset_toNat (nnn : Addr12) (b : Byte) :
    (zext16 nnn + b.setWidth 16).toNat = nnn.toNat + b.toNat := by
  have hnnn := nnn.isLt
  have hb := b.isLt
  bv_omega

theorem exec_jpOff (x : Nibble) (nnn : Addr12) (s : State) :
    exec (.jpOff x nnn) s =
      .next (s.setPc (zext16 nnn + (s.reg (offsetReg s.params.jumpOffset x)).setWidth 16)) := rfl

/-- Settles O28: the setting picks the register (`offsetReg`), and the sum is exact
(`jumpOffset_toNat`). -/
theorem jumpWithOffsetAddsTheRegister : Obligations.JumpWithOffsetAddsTheRegister := by
  refine ⟨fun w => decodeWord_jpOff, fun x nnn s => ⟨_, exec_jpOff x nnn s, rfl, ?_, ?_⟩⟩
  · intro hvx
    simp only [State.setPc_pc, jumpOffset_toNat, hvx, offsetReg]
  · intro hv0
    simp only [State.setPc_pc, jumpOffset_toNat, hv0, offsetReg]

/-! ## A jump to itself (R223, T6) -/

theorem run_succ_of_step {M : Host.Core} {s t : M.State} (h : M.step s = .next t) (n : Nat) :
    M.run (n + 1) s = M.run n t := by
  simp only [Host.Core.run, h]

/-- A state that a step leaves as it is stays so for any number of steps. -/
theorem run_of_step_eq_self {M : Host.Core} {s : M.State} (h : M.step s = .next s) (n : Nat) :
    M.run n s = .next s := by
  induction n with
  | zero => rfl
  | succ n ih => rw [run_succ_of_step h, ih]

/-- Settles O29: the fetched jump sets `PC` to the value it has, so that the step changes nothing
(`run_of_step_eq_self`). -/
theorem selfJumpRunsForever : Obligations.SelfJumpRunsForever := by
  intro s nnn hs hpc hnnn hdecode
  have hfetch : s.pc.toNat ≤ 0xFFE := by rwa [hpc, zext16_toNat]
  have hstep : step s = .next s := calc
    step s = exec (.jp nnn) s := step_executes hs hfetch hdecode
    _ = .next (s.setPc (zext16 nnn)) := exec_jp nnn s
    _ = .next s := by rw [← hpc]; rfl
  exact run_of_step_eq_self hstep

/-! ## Skips (R103 to R106) -/

/-- A skip on `c` goes four bytes on where `P` holds and two where `Q` does, if these are what `c`'s two
values mean (R71). -/
theorem skipIf_spec {c : Bool} {P Q : Prop} (hP : c = true ↔ P) (hQ : c = false ↔ Q) (s : State) :
    ∃ t, skipIf c s = .next t ∧ t = { s with pc := t.pc } ∧
      (P → t.pc = s.pc + 4#16) ∧ (Q → t.pc = s.pc + 2#16) := by
  refine ⟨_, rfl, rfl, fun h => ?_, fun h => ?_⟩
  · simp [hP.2 h]
  · simp [hQ.2 h]

/-- Settles O26: both are `skipIf_spec`, of the equality and of the difference. -/
theorem skipsOnImmediate : Obligations.SkipsOnImmediate :=
  ⟨fun _ => ⟨decodeWord_seImm, decodeWord_sneImm⟩, fun _ _ s =>
    ⟨skipIf_spec beq_iff_eq beq_eq_false_iff_ne s, skipIf_spec bne_iff_ne bne_eq_false_iff_eq s⟩⟩

/-- Settles O27: both are `skipIf_spec`, of the equality and of the difference. -/
theorem skipsOnRegisters : Obligations.SkipsOnRegisters :=
  ⟨fun _ => ⟨decodeWord_seReg, decodeWord_sneReg⟩, fun _ _ s =>
    ⟨skipIf_spec beq_iff_eq beq_eq_false_iff_ne s, skipIf_spec bne_iff_ne bne_eq_false_iff_eq s⟩⟩

/-! ## The call and the return (R101, R102) -/

section

variable {s : State}

theorem exec_call_push (nnn : Addr12) (h : s.sp.toNat < 16) :
    exec (.call nnn) s =
      .next ((s.setStack (s.sp + 1#8) (s.stack.set s.sp.toNat (s.pc + 2#16))).setPc (zext16 nnn)) :=
  callTo_push _ h

theorem sp_push_toNat (h : s.sp.toNat < 16) : (s.sp + 1#8).toNat = s.sp.toNat + 1 := by bv_omega

/-- The push writes the entry at `SP`. -/
theorem pushed_top (h : s.sp.toNat < 16) {k : Nibble} (hk : k.val = s.sp.toNat) (r : Word) :
    (s.stack.set s.sp.toNat r h)[k] = r := by
  simp [hk]

/-- The push leaves every other entry as before. -/
theorem pushed_other (h : s.sp.toNat < 16) {k : Nibble} (hk : k.val ≠ s.sp.toNat) (r : Word) :
    (s.stack.set s.sp.toNat r h)[k] = s.stack[k] :=
  Vector.getElem_set_ne h k.isLt hk.symm

theorem exec_ret_pop {k : Nibble} (h : s.sp.toNat = k.val + 1) :
    exec .ret s = .next ((s.setStack (s.sp - 1#8) s.stack).setPc s.stack[k]) := by
  have hpop := returnFrom_pop (s := s) (by omega) (by omega)
  simp only [h, Nat.add_sub_cancel] at hpop
  exact hpop

theorem sp_pop_toNat {k : Nat} (h : s.sp.toNat = k + 1) : (s.sp - 1#8).toNat = k := by bv_omega

end

/-- Settles O23: below 16 entries the push, by `pushed_top` and `pushed_other`; the other two cases are
those of `callTo`. -/
theorem callPushesAndJumps : Obligations.CallPushesAndJumps := by
  refine ⟨fun w => decodeWord_call, fun nnn s => ⟨fun h => ?_, ?_, ?_⟩⟩
  · refine ⟨_, exec_call_push nnn h, zext16_toNat nnn, sp_push_toNat h, fun k hk => ?_, fun k hk => ?_,
      rfl, fun _ => rfl⟩
    · exact (congrArg BitVec.toNat (pushed_top h hk _)).trans (BitVec.toNat_add s.pc 2#16)
    · exact pushed_other h hk _
  · exact callTo_overflow _
  · exact callTo_illegal _

/-- Settles O24: with an entry the pop (`exec_ret_pop`); the other two cases are those of
`returnFrom`. -/
theorem returnPopsIntoPc : Obligations.ReturnPopsIntoPc :=
  fun _ => ⟨fun _ hk => ⟨_, exec_ret_pop hk, rfl, sp_pop_toNat hk, rfl, fun _ => rfl⟩,
    returnFrom_underflow, returnFrom_illegal⟩

/-- Settles O25: the return pops the entry that the call has pushed (`pushed_top`); the live entries lie
below it (`pushed_other`). -/
theorem callThenReturnComesBack : Obligations.CallThenReturnComesBack := by
  intro nnn s h
  have hsp : s.sp + 1#8 - 1#8 = s.sp := BitVec.add_sub_cancel _ _
  refine ⟨_, _, exec_call_push nnn h, exec_ret_pop (k := ⟨s.sp.toNat, h⟩) (sp_push_toNat h),
    pushed_top h rfl _, hsp, fun k hk => pushed_other h hk.ne _, ?_⟩
  simp only [State.setStack, State.setPc, hsp]

end Sys2Proof.Machine
end

section
/-! PROOFS. Registers and arithmetic (R110 to R122): which words decode to a load, what an instruction
with a result leaves, with and without a flag, and the flags as numbers. -/

namespace Sys2Proof

/-! ## The words of the loads (R78) -/

theorem decodeWord_ldImm {w : Word} (h : w &&& 0xF000#16 = 0x6000#16) :
    decodeWord w = some (.ldImm (fieldX w) (fieldKK w)) := by
  simp [decodeWord, class_of_F000 h]

theorem decodeWord_ldReg {w : Word} (h : w &&& 0xF00F#16 = 0x8000#16) :
    decodeWord w = some (.ldReg (fieldX w) (fieldY w)) := by
  obtain ⟨hc, hn⟩ := fields_of_F00F h
  simp [decodeWord, decodeClass8, hc, hn]

end Sys2Proof

namespace Sys2Proof.Machine

/-! ## A result without a flag (R110 to R115) -/

/-- What the instructions that end in `resultOnly` do: `V[x]` is the result, every other register,
`VF` too, is as before (D8). -/
theorem resultOnly_spec (x : Nibble) (b : Byte) (s : State) :
    ∃ t, resultOnly x b s = .next t ∧ t.reg x = b ∧ (∀ r, r ≠ x → t.reg r = s.reg r) ∧
      t.pc = s.pc + 2#16 ∧ t = { s with v := t.v, pc := t.pc } := by
  refine ⟨_, rfl, ?_, fun r hr => ?_, rfl, rfl⟩
  · simp
  · simp [hr]

/-- Settles O30: both are `resultOnly_spec`, of the immediate and of the other register. -/
theorem registerLoads : Obligations.RegisterLoads :=
  ⟨fun _ => ⟨decodeWord_ldImm, decodeWord_ldReg⟩, fun x y kk s =>
    ⟨resultOnly_spec x kk s, resultOnly_spec x (s.reg y) s⟩⟩

/-- Settles O31: the result of `resultOnly_spec`, read bit by bit. -/
theorem bitwiseOperations : Obligations.BitwiseOperations := by
  refine fun x y s => ⟨?_, ?_, ?_⟩
  · obtain ⟨t, he, hx, hframe⟩ := resultOnly_spec x (s.reg x ||| s.reg y) s
    exact ⟨t, he, fun k _ => by rw [hx, BitVec.getLsbD_or], hframe⟩
  · obtain ⟨t, he, hx, hframe⟩ := resultOnly_spec x (s.reg x &&& s.reg y) s
    exact ⟨t, he, fun k _ => by rw [hx, BitVec.getLsbD_and], hframe⟩
  · obtain ⟨t, he, hx, hframe⟩ := resultOnly_spec x (s.reg x ^^^ s.reg y) s
    exact ⟨t, he, fun k _ => by rw [hx, BitVec.getLsbD_xor], hframe⟩

/-- Settles O32: the result of `resultOnly_spec`, a sum of bytes. -/
theorem addImmediateWrapsWithoutFlag : Obligations.AddImmediateWrapsWithoutFlag := by
  intro x kk s
  obtain ⟨t, he, hx, hframe⟩ := resultOnly_spec x (s.reg x + kk) s
  exact ⟨t, he, by rw [hx, BitVec.toNat_add], hframe⟩

/-! ## A result and a flag (R116 to R122) -/

/-- What the instructions that end in `resultThenFlag` do: the flag is written last, so that with
`x = F` it is what remains (D7). -/
theorem resultThenFlag_spec (x : Nibble) (b : Byte) (f : Bool) (s : State) :
    ∃ t, resultThenFlag x b f s = .next t ∧ (x ≠ vf → t.reg x = b) ∧ t.reg vf = flagByte f ∧
      (∀ r, r ≠ x → r ≠ vf → t.reg r = s.reg r) ∧ t.pc = s.pc + 2#16 ∧
      t = { s with v := t.v, pc := t.pc } := by
  refine ⟨_, rfl, fun hx => ?_, ?_, fun r hr hvf => ?_, rfl, rfl⟩
  · rw [reg_resultThenFlag, if_neg hx, if_pos rfl]
  · rw [reg_resultThenFlag, if_pos rfl]
  · rw [reg_resultThenFlag, if_neg hvf, if_neg hr]

theorem flagByte_decide (p : Prop) [Decidable p] : flagByte (decide p) = if p then 1#8 else 0#8 := by
  simp [flagByte]

/-- Settles O33: `resultThenFlag_spec` of the sum of bytes and its carry. -/
theorem addSetsCarry : Obligations.AddSetsCarry := by
  intro x y s
  obtain ⟨t, he, hx, hvf, hframe⟩ :=
    resultThenFlag_spec x (s.reg x + s.reg y) (carryFlag (s.reg x) (s.reg y)) s
  exact ⟨t, he, fun h => by rw [hx h, BitVec.toNat_add], hvf.trans (flagByte_decide _), hframe⟩

/-- `V[x]` gets `a - b` and `VF` the not-borrow: one subtraction, in whichever order its operands
come. -/
theorem subtract_spec (x : Nibble) (a b : Byte) (s : State) :
    ∃ t, resultThenFlag x (a - b) (notBorrowFlag a b) s = .next t ∧
      (x ≠ vf → (t.reg x).toNat = (a.toNat + 256 - b.toNat) % 256) ∧
      (t.reg vf = if b.toNat ≤ a.toNat then 1#8 else 0#8) ∧
      (∀ r, r ≠ x → r ≠ vf → t.reg r = s.reg r) ∧ t.pc = s.pc + 2#16 ∧
      t = { s with v := t.v, pc := t.pc } := by
  obtain ⟨t, he, hx, hvf, hframe⟩ := resultThenFlag_spec x (a - b) (notBorrowFlag a b) s
  exact ⟨t, he, fun h => by rw [hx h]; bv_omega, hvf.trans (flagByte_decide _), hframe⟩

/-- Settles O34: both are `subtract_spec`, with the operands in either order. -/
theorem subtractionsSetNotBorrow : Obligations.SubtractionsSetNotBorrow :=
  fun x y s => ⟨subtract_spec x (s.reg x) (s.reg y) s, subtract_spec x (s.reg y) (s.reg x) s⟩

theorem flagByte_toNat (f : Bool) : (flagByte f).toNat = f.toNat := by
  cases f <;> rfl

/-- A bit of a byte, as the number that `VF` then holds. -/
theorem flagByte_getLsbD_toNat (a : Byte) (k : Nat) :
    (flagByte (a.getLsbD k)).toNat = a.toNat / 2 ^ k % 2 := by
  rw [flagByte_toNat, BitVec.getLsbD, Nat.toNat_testBit]

/-- The bit that a right shift moves out (R118). -/
theorem shrFlag_toNat (a : Byte) : (flagByte (shrFlag a)).toNat = a.toNat % 2 := by
  rw [shrFlag, flagByte_getLsbD_toNat, Nat.pow_zero, Nat.div_one]

/-- The bit that a left shift moves out (R120): the highest of a byte. -/
theorem shlFlag_toNat (a : Byte) : (flagByte (shlFlag a)).toNat = a.toNat / 128 := by
  have ha := a.isLt
  rw [shlFlag, flagByte_getLsbD_toNat]
  omega

/-- Settles O35: `resultThenFlag_spec` of half and of twice the register, the bits shifted out by
`shrFlag_toNat` and `shlFlag_toNat`. -/
theorem shiftsTakeVxAndSetTheBitOut : Obligations.ShiftsTakeVxAndSetTheBitOut := by
  refine fun x y s => ⟨?_, ?_⟩
  · obtain ⟨t, he, hx, hvf, hframe⟩ := resultThenFlag_spec x (s.reg x >>> 1) (shrFlag (s.reg x)) s
    exact ⟨t, he, fun h => by rw [hx h, BitVec.toNat_ushiftRight, Nat.shiftRight_one],
      by rw [hvf, shrFlag_toNat], hframe⟩
  · obtain ⟨t, he, hx, hvf, hframe⟩ := resultThenFlag_spec x (s.reg x <<< 1) (shlFlag (s.reg x)) s
    exact ⟨t, he, fun h => by rw [hx h, BitVec.toNat_shiftLeft, Nat.shiftLeft_eq],
      by rw [hvf, shlFlag_toNat], hframe⟩

end Sys2Proof.Machine
end

section
/-! PROOFS. Index register and memory (R130 to R136): the arithmetic of `I`, what a store and a load
through `I` leave, and a load from where the store wrote. -/

namespace Sys2Proof

/-- The word of `Annn` (R78). -/
theorem decodeWord_ldI {w : Word} (h : w &&& 0xF000#16 = 0xA000#16) :
    decodeWord w = some (.ldI (fieldNNN w)) := by
  simp [decodeWord, class_of_F000 h]

end Sys2Proof

namespace Sys2Proof.Machine

/-! ## The index register (R130 to R132) -/

theorem exec_ldI (nnn : Addr12) (s : State) :
    exec (.ldI nnn) s = .next (s.setI (zext16 nnn)).advance := rfl

/-- Settles O37: the pattern is `decodeWord_ldI`, the load `exec_ldI`. -/
theorem loadIndexImmediate : Obligations.LoadIndexImmediate :=
  ⟨fun _ => decodeWord_ldI,
    fun nnn s => ⟨_, exec_ldI nnn s, zext16_toNat nnn, rfl, rfl, fun _ => rfl⟩⟩

theorem exec_addI (x : Nibble) (s : State) :
    exec (.addI x) s =
      .next ((s.setI (s.i + (s.reg x).setWidth 16)).setV vf
        (flagByte (indexFlag s.i (s.reg x)))).advance := rfl

/-- `I` keeps 16 bits of the sum with a byte (D9). -/
theorem indexSum_toNat (i : Word) (b : Byte) :
    (i + b.setWidth 16).toNat = (i.toNat + b.toNat) % 65536 := by
  rw [BitVec.toNat_add, BitVec.toNat_setWidth_of_le (by decide)]

/-- Settles O38: the sum is `indexSum_toNat`, and `VF` alone is written besides `I`. -/
theorem addIndexFlagsPastMemory : Obligations.AddIndexFlagsPastMemory := by
  refine fun x s => ⟨_, exec_addI x s, indexSum_toNat s.i (s.reg x), ?_, fun r hr => ?_, rfl, rfl⟩
  · rw [State.reg_advance, State.reg_setV, if_pos rfl]
    exact flagByte_decide _
  · rw [State.reg_advance, State.reg_setV, if_neg hr, State.reg_setI]

theorem glyphAddress_toNat (d : Nibble) : (glyphAddress d).toNat = 0x050 + 5 * d.val := by
  simp only [glyphAddress, Config.fontBase, Config.glyphBytes, BitVec.toNat_ofNat]
  omega

/-- The five bytes of a glyph lie in the font region (R58). -/
theorem inFont_glyph (d : Nibble) {k : Nat} (hk : k < 5) :
    inFont ((glyphAddress d).toNat + k) = true := by
  rw [inFont_eq_true, glyphAddress_toNat]
  omega

theorem exec_ldF_of_digit {x d : Nibble} {s : State}
    (h : digitOf s.params.highDigit (s.reg x) = some d) :
    exec (.ldF x) s = .next (s.setI (glyphAddress d)).advance := by
  simp only [exec, execLdF, h]

/-- Settles O39: a value with a digit (`digitOf_eq_some`) gives its glyph's address, one without is
refused. -/
theorem loadGlyphAddress : Obligations.LoadGlyphAddress := by
  refine fun x s => ⟨fun h => ?_, fun ⟨hv, hp⟩ => ?_⟩
  · have hd : digitOf s.params.highDigit (s.reg x) = some ⟨(s.reg x).toNat % 16, by omega⟩ :=
      digitOf_eq_some.2 ⟨h.imp_left Nat.lt_succ_of_le, rfl⟩
    exact ⟨_, exec_ldF_of_digit hd, glyphAddress_toNat _, rfl, rfl, fun _ => inFont_glyph _⟩
  · exact (exec_digit_eq_refused (by simp)).2 ⟨hp, hv, rfl⟩

/-! ## Stores through `I` (R133, R134) -/

/-- What a store that is neither out of range nor refused leaves: its bytes in the cells from `I`
upward, and everything else but `PC` as before, `I` too (D10). -/
theorem storeAtI_spec {bs : List Byte} {s : State} (hm : Memory.wf s.mem)
    (hrange : s.i.toNat + bs.length ≤ 0x1000)
    (hfont : s.params.fontWrite = .allow ∨
      ∀ k, k < bs.length → inFont (s.i.toNat + k) = false) :
    ∃ t, storeAtI bs s = .next t ∧
      (∀ k (hk : k < bs.length), t.byte (s.i.toNat + k) = bs[k]) ∧
      (∀ a, ¬ (s.i.toNat ≤ a ∧ a < s.i.toNat + bs.length) → t.byte a = s.byte a) ∧
      t.pc = s.pc + 2#16 ∧ t = { s with mem := t.mem, pc := t.pc } :=
  ⟨_, storeAtI_completes hrange hfont, fun _ hk => Memory.read_writeBytes_in hm hrange hk,
    fun _ ha => Memory.read_writeBytes_out _ _ _ ha, rfl, rfl⟩

/-- The three bytes as numbers (D14): a quotient of a byte fits a byte. -/
theorem bcdDigits_toNat (b : Byte) :
    (bcdDigits b)[0].toNat = b.toNat / 100 ∧ (bcdDigits b)[1].toNat = b.toNat / 10 % 10 ∧
      (bcdDigits b)[2].toNat = b.toNat % 10 := by
  have hb := b.isLt
  simp only [bcdDigits, List.getElem_cons_zero, List.getElem_cons_succ, BitVec.toNat_ofNat]
  omega

/-- Settles O40: `storeAtI_spec` of the three digits, whose values are `bcdDigits_toNat`. -/
theorem storeDecimalDigits : Obligations.StoreDecimalDigits := by
  intro x s hm hrange hfont
  obtain ⟨t, he, hin, hframe⟩ := storeAtI_spec (bs := bcdDigits (s.reg x)) hm hrange hfont
  obtain ⟨hhundreds, htens, hones⟩ := bcdDigits_toNat (s.reg x)
  refine ⟨t, he, ?_, ?_, ?_, hframe⟩
  · exact (congrArg BitVec.toNat (hin 0 (by simp))).trans hhundreds
  · exact (congrArg BitVec.toNat (hin 1 (by simp))).trans htens
  · exact (congrArg BitVec.toNat (hin 2 (by simp))).trans hones

/-- Settles O41: `storeAtI_spec` of the registers up to `x`; what the cells hold is `byte_of_stRegs`. -/
theorem storeRegisters : Obligations.StoreRegisters := by
  intro x s hm hrange hfont
  have hlen := length_regsThrough x s
  obtain ⟨t, he, -, hout, hframe⟩ := storeAtI_spec (bs := regsThrough x s) hm (by omega)
    (hfont.imp_right fun h k hk => h k (by omega))
  exact ⟨t, he, fun r hr => byte_of_stRegs hm hrange he hr, fun a ha => hout a (by omega), hframe⟩

/-! ## Loads through `I` (R135) -/

/-- Settles O42: the load completes, and its registers are those of `loadedRegs_get`. -/
theorem loadRegisters : Obligations.LoadRegisters := by
  refine fun x s hrange =>
    ⟨_, loadAtI_completes (.inr hrange), fun r hr => ?_, fun r hr => ?_, rfl, rfl⟩
  · rw [State.reg_advance, State.reg_setRegs, loadedRegs_get, if_pos (Nat.lt_succ_of_le hr)]
  · rw [State.reg_advance, State.reg_setRegs, loadedRegs_get, if_neg (Nat.not_lt.2 hr)]

/-- Settles O43: the load reads the cells that the store has written (`byte_of_stRegs`), as `Fx55`
leaves `I` as it is. -/
theorem storeThenLoadRestoresRegisters : Obligations.StoreThenLoadRestoresRegisters := by
  intro x s t u hm hrange hstore hmem hi
  have hindex : u.i = s.i := hi.trans ((everyInstructionKeepsTheRest _ s t hstore).i rfl)
  obtain ⟨w, he, hloaded, habove, -⟩ := loadRegisters x u (hindex ▸ hrange)
  refine ⟨w, he, fun r hr => ?_, habove⟩
  calc w.reg r = t.byte (s.i.toNat + r.val) := by
        rw [hloaded r hr, hindex, State.byte, hmem, State.byte]
    _ = s.reg r := byte_of_stRegs hm hrange hstore hr

end Sys2Proof.Machine
end

section
/-! PROOFS. Display (R140 to R145): the clearing of every pixel, and a draw in the words of the sprite
bits that land on the display, once and twice. -/

namespace Sys2Proof

/-- The word of `00E0` (R78): its mask keeps every bit. -/
theorem decodeWord_cls {w : Word} (h : w &&& 0xFFFF#16 = 0x00E0#16) : decodeWord w = some .cls := by
  have hw : w = 0x00E0#16 := BitVec.and_allOnes.symm.trans h
  exact hw ▸ rfl

end Sys2Proof

namespace Sys2Proof.Machine

/-! ## Clearing (R140, R210) -/

theorem exec_cls (s : State) : exec .cls s = .next (s.setFb blankDisplay).advance := rfl

theorem pixel_of_fb_blank {s : State} (h : s.fb = blankDisplay) (py : Fin 32) (px : Fin 64) :
    s.pixel py px = false := by
  simp [State.pixel, h]

/-- An `INIT` that is performed leaves the state of R210. -/
theorem initEvent_eq_next {rom : List Byte} {la : Word} {s t : State} :
    initEvent rom la s = .next t ↔ initAccepts rom la = true ∧ t = initState rom la s := by
  cases h : initAccepts rom la <;> simp [initEvent, h, eq_comm]

/-- Settles O44: `CLS` and `INIT` both leave the blank display (`pixel_of_fb_blank`). -/
theorem clearDisplay : Obligations.ClearDisplay := by
  refine ⟨fun w => decodeWord_cls, fun s => ?_, fun s t rom la h => ?_⟩
  · exact ⟨_, exec_cls s, pixel_of_fb_blank rfl, rfl, rfl, rfl, fun _ => rfl⟩
  · obtain ⟨-, rfl⟩ := initEvent_eq_next.1 h
    exact pixel_of_fb_blank rfl

/-! ## The sprite bits of a draw (R142, R143) -/

/-- The sprite bit of the blit engine that lands on a pixel is 1 exactly where `SpriteHits` says so. -/
theorem spriteBit_spriteRows {s : State} {vx vy : Byte} {n : Nibble} {py : Fin 32} {px : Fin 64} :
    spriteBit (vx.toNat % 64) (vy.toNat % 32) 0 (spriteRows n s) py px = true ↔
      SpriteHits s vx vy n py px := by
  simp only [spriteBit_eq_true, getElem_spriteRows, length_spriteRows, SpriteHits, Fin.ext_iff,
    wrapRow_val, wrapCol_val, Nat.zero_add, Nat.mod_add_mod, exists_prop, exists_and_left,
    eq_comm (b := py.val), eq_comm (b := px.val)]

/-! ## One draw (R141 to R144) -/

theorem exec_drw {x y n : Nibble} {s : State} (h : n.val = 0 ∨ s.i.toNat + n.val ≤ 0x1000) :
    exec (.drw x y n) s =
      .next ((s.setFb (blit (s.reg x) (s.reg y) (spriteRows n s) s.fb).1).setV vf
        (flagByte (blit (s.reg x) (s.reg y) (spriteRows n s) s.fb).2)).advance := by
  simp only [exec, execDrw, checkRange_eq_none.2 h]

/-- A blit toggles the pixels that set sprite bits land on, keeps the others, and reports whether one
it toggled was set; a sprite has at most 15 rows, so that `blit_spec` speaks of it. -/
theorem blit_spriteRows (vx vy : Byte) (n : Nibble) (s : State) (d : Display) :
    (∀ py px, SpriteHits s vx vy n py px →
      (blit vx vy (spriteRows n s) d).1[py][px] = !d[py][px]) ∧
    (∀ py px, ¬ SpriteHits s vx vy n py px →
      (blit vx vy (spriteRows n s) d).1[py][px] = d[py][px]) ∧
    ((blit vx vy (spriteRows n s) d).2 = true ↔
      ∃ py px, SpriteHits s vx vy n py px ∧ d[py][px] = true) := by
  have hrows : (spriteRows n s).length ≤ 32 := by
    rw [length_spriteRows]
    omega
  obtain ⟨hpixel, hflag⟩ := blit_spec vx vy (spriteRows n s) hrows d
  refine ⟨fun py px hp => ?_, fun py px hp => ?_, by simpa only [spriteBit_spriteRows] using hflag⟩
  · rw [hpixel, spriteBit_spriteRows.2 hp, Bool.xor_true]
  · rw [hpixel, eq_false_of_ne_true (mt spriteBit_spriteRows.1 hp), Bool.xor_false]

/-- Settles O45: the draw completes (`exec_drw`), and its display and its flag are those of
`blit_spriteRows`. -/
theorem drawXorsTheSprite : Obligations.DrawXorsTheSprite := by
  intro x y n s hrange
  obtain ⟨htoggled, hkept, hflag⟩ := blit_spriteRows (s.reg x) (s.reg y) n s s.fb
  refine ⟨_, exec_drw hrange, htoggled, hkept, fun hcleared => ?_, fun hclear => ?_, fun r hr => ?_,
    rfl, rfl, fun _ => rfl⟩
  · rw [State.reg_advance, State.reg_setV, if_pos rfl, flagByte_eq_one]
    exact hflag.2 hcleared
  · rw [State.reg_advance, State.reg_setV, if_pos rfl, flagByte_eq_zero]
    refine eq_false_of_ne_true fun hhit => ?_
    obtain ⟨py, px, hp, hset⟩ := hflag.1 hhit
    exact absurd hset (ne_true_of_eq_false (hclear py px hp))
  · rw [State.reg_advance, State.reg_setV, if_neg hr, State.reg_setFb]

/-! ## Two draws (T3) -/

/-- A display is its pixels. -/
theorem fb_ext {s t : State} (h : ∀ py px, t.pixel py px = s.pixel py px) : t.fb = s.fb := by
  refine Vector.ext fun py hpy => Vector.ext fun px hpx => ?_
  exact h ⟨py, hpy⟩ ⟨px, hpx⟩

/-- Where the sprite bits land depends on memory and `I` alone, besides the coordinates. -/
theorem spriteHits_congr {s u : State} (hmem : u.mem = s.mem) (hi : u.i = s.i) :
    SpriteHits u = SpriteHits s := by
  unfold SpriteHits State.byte
  rw [hmem, hi]

/-- Settles O46: the second draw meets the sprite bits of the first one (`spriteHits_congr`), so that
every pixel is toggled twice or never, and the set pixels that it meets are those that the first one
met clear. -/
theorem drawTwiceRestoresTheDisplay : Obligations.DrawTwiceRestoresTheDisplay := by
  intro x y n s t u hrange hdraw hfb hmem hi hx hy
  obtain ⟨t', he, htoggled, hkept, -, -, -, -, hframe, -⟩ := drawXorsTheSprite x y n s hrange
  obtain rfl : t' = t := Host.Outcome.next.inj (he.symm.trans hdraw)
  have hindex : u.i = s.i := by rw [hi, hframe]
  have hbytes : u.mem = s.mem := by rw [hmem, hframe]
  have hpixel : ∀ py px, u.pixel py px = t'.pixel py px := fun py px => by
    rw [State.pixel, hfb, State.pixel]
  obtain ⟨w, he', htoggled', hkept', hset, hclear, -⟩ := drawXorsTheSprite x y n u (hindex ▸ hrange)
  rw [hx, hy, spriteHits_congr hbytes hindex] at htoggled' hkept' hset hclear
  have hmet : ∀ py px, SpriteHits s (s.reg x) (s.reg y) n py px →
      u.pixel py px = !s.pixel py px := fun py px hp => (hpixel py px).trans (htoggled py px hp)
  refine ⟨w, he', fb_ext fun py px => ?_, fun hone => ?_, fun ⟨py, px, hp, hpx⟩ => ?_⟩
  · by_cases hp : SpriteHits s (s.reg x) (s.reg y) n py px
    · rw [htoggled' py px hp, hmet py px hp, Bool.not_not]
    · rw [hkept' py px hp, hpixel, hkept py px hp]
  · by_contra hnone
    have hzero : w.reg 15 = 0#8 := hclear fun py px hp => by
      rw [hmet py px hp, Bool.not_eq_false']
      exact eq_true_of_ne_false fun hpx => hnone ⟨py, px, hp, hpx⟩
    exact absurd (hzero.symm.trans hone) (by decide)
  · exact hset ⟨py, px, hp, by rw [hmet py px hp, hpx, Bool.not_false]⟩

end Sys2Proof.Machine
end

section
/-! PROOFS. Timers (R150 to R155): the three timer instructions, which instructions write a timer, that
none reads `ST`, and when the beep falls. -/

namespace Sys2Proof

/-- The word of `Fx07` (R78). -/
theorem decodeWord_ldVxDt {w : Word} (h : w &&& 0xF0FF#16 = 0xF007#16) :
    decodeWord w = some (.ldVxDt (fieldX w)) := by
  obtain ⟨hc, hk⟩ := fields_of_F0FF h
  simp [decodeWord, decodeClassF, hc, hk]

end Sys2Proof

namespace Sys2Proof.Machine

/-! ## The beep output (R155) -/

theorem beepOut_eq_false {s : State} : s.beepOut = false ↔ s.st = 0#8 := by
  rw [State.beepOut, decide_eq_false_iff_not, Nat.not_lt, Nat.le_zero]
  exact BitVec.toNat_inj (y := 0#8)

theorem beepOut_iff_st_ne_zero {s : State} : s.beepOut = true ↔ s.st ≠ 0#8 := by
  rw [← Bool.not_eq_false, Ne, beepOut_eq_false]

/-! ## The timer instructions (R150 to R152) -/

/-- Settles O47: the pattern is `decodeWord_ldVxDt`, the load `resultOnly_spec` of the delay timer. -/
theorem readDelayTimer : Obligations.ReadDelayTimer := by
  refine ⟨fun w => decodeWord_ldVxDt, fun x s => ?_⟩
  obtain ⟨t, he, hx, hregs, hpc, hframe⟩ := resultOnly_spec x s.dt s
  exact ⟨t, he, hx, hregs, hpc, hframe, fun a => by rw [hframe]; rfl⟩

theorem exec_ldDtVx (x : Nibble) (s : State) :
    exec (.ldDtVx x) s = .next (s.setDt (s.reg x)).advance := rfl

theorem exec_ldStVx (x : Nibble) (s : State) :
    exec (.ldStVx x) s = .next (s.setSt (s.reg x)).advance := rfl

/-- Settles O48: `exec_ldDtVx` and `exec_ldStVx`; the beep is on for what the latter has written. -/
theorem setTimers : Obligations.SetTimers :=
  fun x s => ⟨⟨_, exec_ldDtVx x s, rfl, rfl, rfl, fun _ => rfl⟩,
    ⟨_, exec_ldStVx x s, rfl, beepOut_iff_st_ne_zero, rfl, rfl, fun _ => rfl⟩⟩

/-! ## Which instructions write a timer (R154) -/

theorem footprint_dt {i : Instr} : (footprint i).dt = true ↔ ∃ x, i = .ldDtVx x := by
  cases i <;> simp [footprint]

theorem footprint_st {i : Instr} : (footprint i).st = true ↔ ∃ x, i = .ldStVx x := by
  cases i <;> simp [footprint]

/-- By the frame (O52), only `Fx15` changes `DT`. -/
theorem exec_dt_changed {i : Instr} {s t : State} (h : exec i s = .next t) (hne : t.dt ≠ s.dt) :
    ∃ x, i = .ldDtVx x ∧ t.dt = s.reg x := by
  have hwrites : (footprint i).dt = true :=
    eq_true_of_ne_false fun hf => hne ((everyInstructionKeepsTheRest i s t h).dt hf)
  obtain ⟨x, rfl⟩ := footprint_dt.1 hwrites
  cases h
  exact ⟨x, rfl, rfl⟩

/-- By the frame (O52), only `Fx18` changes `ST`. -/
theorem exec_st_changed {i : Instr} {s t : State} (h : exec i s = .next t) (hne : t.st ≠ s.st) :
    ∃ x, i = .ldStVx x ∧ t.st = s.reg x := by
  have hwrites : (footprint i).st = true :=
    eq_true_of_ne_false fun hf => hne ((everyInstructionKeepsTheRest i s t h).st hf)
  obtain ⟨x, rfl⟩ := footprint_st.1 hwrites
  cases h
  exact ⟨x, rfl, rfl⟩

/-- A `STEP` that does not execute keeps both timers; one that does is the execution of the fetched
instruction. -/
theorem stepEvent_timers {s t : State} (h : stepEvent s = .next t) :
    (t.dt = s.dt ∧ t.st = s.st) ∨ ∃ i, decodeWord s.fetchWord = some i ∧ exec i s = .next t := by
  obtain he | ⟨-, -, ⟨a, -, he⟩ | ⟨-, -, he⟩ | ⟨i, -, hd, he⟩⟩ := stepEvent_cases s <;> rw [he] at h
  iterate 3
    cases h
    exact .inl ⟨rfl, rfl⟩
  exact .inr ⟨i, hd, h⟩

/-- Settles O54: a changed timer was changed by the executed instruction (`stepEvent_timers`), which
`exec_dt_changed` and `exec_st_changed` name. -/
theorem stepNeverTicks : Obligations.StepNeverTicks := by
  intro s t h
  obtain ⟨hdt, hst⟩ | ⟨i, hd, he⟩ := stepEvent_timers h
  · exact ⟨fun hne => absurd hdt hne, fun hne => absurd hst hne⟩
  · refine ⟨fun hne => ?_, fun hne => ?_⟩
    · obtain ⟨x, rfl, hx⟩ := exec_dt_changed he hne
      exact ⟨x, hd, hx⟩
    · obtain ⟨x, rfl, hx⟩ := exec_st_changed he hne
      exact ⟨x, hd, hx⟩

/-! ## No instruction reads `ST` (R153) -/

/-- An outcome with `b` in the sound timer of its next state, if it has one. -/
def Result.withSt (b : Byte) : Result → Result
  | .next s => .next (s.setSt b)
  | .fault f => .fault f
  | .refused r => .refused r

section

variable (b : Byte) (s : State)

theorem storeAtI_setSt (bs : List Byte) :
    storeAtI bs (s.setSt b) = Result.withSt b (storeAtI bs s) := by
  unfold storeAtI
  rw [State.setSt_i, State.setSt_params]
  cases checkRange s.i bs.length with
  | some a => rfl
  | none =>
    dsimp only
    split <;> rfl

theorem loadAtI_setSt (n : Nat) : loadAtI n (s.setSt b) = Result.withSt b (loadAtI n s) := by
  simp only [loadAtI, State.setSt_i]
  cases checkRange s.i n <;> rfl

theorem callTo_setSt (target : Word) :
    callTo target (s.setSt b) = Result.withSt b (callTo target s) := by
  obtain hlt | heq | hgt := lt_trichotomy s.sp.toNat 16
  · rw [callTo_push target hlt, callTo_push (s := s.setSt b) target hlt]
    rfl
  · rw [callTo_overflow target heq, callTo_overflow (s := s.setSt b) target heq]
    rfl
  · rw [callTo_illegal target hgt, callTo_illegal (s := s.setSt b) target hgt]
    rfl

theorem returnFrom_setSt : returnFrom (s.setSt b) = Result.withSt b (returnFrom s) := by
  obtain h0 | h0 := Nat.eq_zero_or_pos s.sp.toNat
  · rw [returnFrom_underflow h0, returnFrom_underflow (s := s.setSt b) h0]
    rfl
  · obtain hgt | hle := Nat.lt_or_ge 16 s.sp.toNat
    · rw [returnFrom_illegal hgt, returnFrom_illegal (s := s.setSt b) hgt]
      rfl
    · rw [returnFrom_pop h0 hle, returnFrom_pop (s := s.setSt b) h0 hle]
      rfl

theorem execDrw_setSt (x y n : Nibble) :
    execDrw x y n (s.setSt b) = Result.withSt b (execDrw x y n s) := by
  simp only [execDrw, State.setSt_i]
  cases checkRange s.i n.val <;> rfl

/-- The three instructions with a digit find the same one, or none, whatever `ST` is. -/
theorem exec_digit_setSt {i : Instr} {x : Nibble} (hi : i = .skp x ∨ i = .sknp x ∨ i = .ldF x) :
    exec i (s.setSt b) = Result.withSt b (exec i s) := by
  cases hd : digitOf s.params.highDigit (s.reg x) <;> obtain rfl | rfl | rfl := hi <;>
    simp only [exec, execSkp, execSknp, execLdF, State.setSt_params, State.reg_setSt, hd] <;> rfl

/-- Every instruction but `Fx18` leaves the sound timer it was given and does the same otherwise. -/
theorem exec_setSt {i : Instr} (hi : (footprint i).st = false) :
    exec i (s.setSt b) = Result.withSt b (exec i s) := by
  cases i with
  | ret => exact returnFrom_setSt b s
  | call nnn => exact callTo_setSt b s _
  | drw x y n => exact execDrw_setSt b s x y n
  | ldB x => exact storeAtI_setSt b s (bcdDigits (s.reg x))
  | stRegs x => exact storeAtI_setSt b s (regsThrough x s)
  | ldRegs x => exact loadAtI_setSt b s _
  | skp x => exact exec_digit_setSt b s (.inl rfl)
  | sknp x => exact exec_digit_setSt b s (.inr (.inl rfl))
  | ldF x => exact exec_digit_setSt b s (.inr (.inr rfl))
  | ldStVx x => cases hi
  | _ => rfl

/-- `Fx18` overwrites the sound timer. -/
theorem exec_ldStVx_setSt (x : Nibble) : exec (.ldStVx x) (s.setSt b) = exec (.ldStVx x) s := rfl

end

/-- Settles O55: `Fx18` overwrites `ST` (`exec_ldStVx_setSt`), and every other instruction leaves it, by
the frame (O52) in the one run and by `exec_setSt` in the other. -/
theorem noInstructionReadsTheSoundTimer : Obligations.NoInstructionReadsTheSoundTimer := by
  intro i s b
  cases hst : (footprint i).st with
  | true =>
    obtain ⟨x, rfl⟩ := footprint_st.1 hst
    have hsame := exec_ldStVx_setSt b s x
    exact ⟨fun t h => ⟨t, hsame.trans h, rfl, .inl rfl⟩, fun _ => hsame.trans, fun _ => hsame.trans⟩
  | false =>
    have hsame := exec_setSt b s hst
    refine ⟨fun t h => ⟨t.setSt b, ?_, rfl, .inr ⟨?_, rfl⟩⟩, fun f h => ?_, fun r h => ?_⟩
    · exact hsame.trans (congrArg (Result.withSt b) h)
    · exact (everyInstructionKeepsTheRest i s t h).st hst
    · exact hsame.trans (congrArg (Result.withSt b) h)
    · exact hsame.trans (congrArg (Result.withSt b) h)

/-! ## When the beep falls (R155, R190, R210) -/

theorem eq_one_of_countDown_eq_zero {c : Byte} (h : countDown c = 0#8) (hne : c ≠ 0#8) : c = 1#8 := by
  rw [countDown, if_neg hne] at h
  bv_omega

/-- A `TICK` silences only a sound timer of 1. -/
theorem st_eq_one_of_tickEvent {s : State} (hon : s.st ≠ 0#8) (hoff : (tickEvent s).st = 0#8) :
    s.st = 1#8 := by
  cases hstatus : s.status with
  | halted e =>
    rw [tickEvent_halted hstatus] at hoff
    exact absurd hoff hon
  | running =>
    rw [tickEvent_running hstatus] at hoff
    exact eq_one_of_countDown_eq_zero hoff hon

theorem keysEvent_st (k : Keys) (s : State) : (keysEvent k s).st = s.st := by
  cases hstatus : s.status with
  | halted e => rw [keysEvent_halted k hstatus]
  | running =>
    rw [keysEvent_running k hstatus, State.setKeys_st]
    obtain ⟨x, key, -, -, he⟩ | ⟨-, he⟩ := endWait_cases k s
    · rw [he, State.setWait_st, State.setV_st]
    · rw [he]

/-- A `STEP` silences the sound timer only by an `Fx18` that writes 0. -/
theorem ldStVx_of_stepEvent {s t : State} (h : stepEvent s = .next t) (hon : s.st ≠ 0#8)
    (hoff : t.st = 0#8) : ∃ x, decodeWord s.fetchWord = some (.ldStVx x) ∧ s.reg x = 0#8 := by
  obtain ⟨x, hd, hx⟩ := (stepNeverTicks s t h).2 fun heq => hon (heq.symm.trans hoff)
  exact ⟨x, hd, hx.symm.trans hoff⟩

/-- Settles O17: of the four events, `KEYS` keeps `ST`, and a `TICK` and a `STEP` take it to 0 only as
`st_eq_one_of_tickEvent` and `ldStVx_of_stepEvent` say. -/
theorem beepFallsOnlyByTickOrStore : Obligations.BeepFallsOnlyByTickOrStore := by
  refine ⟨fun s => beepOut_eq_true, fun s t h hs ht => ?_⟩
  have hon : s.st ≠ 0#8 := beepOut_iff_st_ne_zero.1 hs
  have hoff : t.st = 0#8 := beepOut_eq_false.1 ht
  obtain ⟨u, ⟨rfl, hev⟩ | ⟨es, hev, rfl⟩, he⟩ | ⟨es, hev, he⟩ | ⟨k, es, -, he⟩ |
    ⟨rom, la, es, hev, -⟩ := step_cases s
  · obtain ⟨x, hd, hx⟩ := ldStVx_of_stepEvent (he.symm.trans h) hon hoff
    exact .inr (.inl ⟨x, .inl hev, hd, hx⟩)
  · obtain ⟨x, hd, hx⟩ := ldStVx_of_stepEvent (he.symm.trans h) hon hoff
    exact .inr (.inl ⟨x, .inr ⟨es, hev⟩, hd, hx⟩)
  · obtain rfl := Host.Outcome.next.inj (he.symm.trans h)
    exact .inl ⟨es, hev, st_eq_one_of_tickEvent (s := s.setHostEvents es) hon hoff⟩
  · obtain rfl := Host.Outcome.next.inj (he.symm.trans h)
    exact absurd ((keysEvent_st k (s.setHostEvents es)).symm.trans hoff) hon
  · exact .inr (.inr ⟨rom, la, es, hev⟩)

end Sys2Proof.Machine
end

section
/-! PROOFS. Input (R160 to R165): the two skips on a key, and how a key wait begins, is held and ends. -/

namespace Sys2Proof.Machine

/-! ## Skips on a key (R160, R161) -/

theorem exec_skp_of_digit {x k : Nibble} {s : State}
    (h : digitOf s.params.highDigit (s.reg x) = some k) :
    exec (.skp x) s = skipIf s.keys[k] s := by
  simp only [exec, execSkp, h]

theorem exec_sknp_of_digit {x k : Nibble} {s : State}
    (h : digitOf s.params.highDigit (s.reg x) = some k) :
    exec (.sknp x) s = skipIf (!s.keys[k]) s := by
  simp only [exec, execSknp, h]

/-- Settles O49: a value with a key number (`digitOf_eq_some`) makes both a skip on that key
(`skipIf_spec`), one without is refused. -/
theorem skipsOnKey : Obligations.SkipsOnKey := by
  refine fun x s => ⟨fun h k hk => ?_, fun ⟨hv, hp⟩ => ?_⟩
  · have hd : digitOf s.params.highDigit (s.reg x) = some k :=
      digitOf_eq_some.2 ⟨h.imp_left Nat.lt_succ_of_le, hk⟩
    rw [exec_skp_of_digit hd, exec_sknp_of_digit hd]
    exact ⟨skipIf_spec .rfl .rfl s,
      skipIf_spec (Bool.not_eq_true' _).to_iff (Bool.not_eq_false' _).to_iff s⟩
  · exact ⟨(exec_digit_eq_refused (by simp)).2 ⟨hp, hv, rfl⟩,
      (exec_digit_eq_refused (by simp)).2 ⟨hp, hv, rfl⟩⟩

/-! ## A key wait begins and is held (R162, R163) -/

theorem exec_ldVxK (x : Nibble) (s : State) :
    exec (.ldVxK x) s = .next (s.setWait (some x)).advance := rfl

/-- Settles O50: `exec_ldVxK`, and `stepEvent_waiting` in the state that it leaves. -/
theorem keyWaitBegins : Obligations.KeyWaitBegins :=
  fun x s => ⟨_, exec_ldVxK x s, rfl, rfl, rfl, stepEvent_waiting (x := x) rfl, fun _ => rfl⟩

/-- Settles O10: the `STEP` is `stepEvent_waiting`, the `TICK` `tickEvent_running`, which does not ask
for the wait. -/
theorem keyWaitHoldsStepNotTick : Obligations.KeyWaitHoldsStepNotTick := by
  refine fun s x hs hw => ⟨stepEvent_waiting hw, _, rfl, ?_⟩
  rw [tickEvent_running hs]
  exact ⟨rfl, countDown_toNat s.dt, countDown_toNat s.st⟩

/-! ## A key wait ends (R164, R165) -/

theorem endWait_of_newlyPressed {k : Keys} {s : State} {x key : Nibble} (hw : s.wait = some x)
    (hn : newlyPressed s.keys k = some key) :
    endWait k s = (s.setV x (BitVec.ofNat 8 key.val)).setWait none := by
  simp only [endWait, hw, hn]

theorem endWait_eq_self {k : Keys} {s : State}
    (h : s.wait = none ∨ newlyPressed s.keys k = none) : endWait k s = s := by
  obtain ⟨x, key, hw, hn, -⟩ | ⟨-, he⟩ := endWait_cases k s
  · simp [hw, hn] at h
  · exact he

/-- The end of a wait writes `wait` and `V` alone. -/
theorem endWait_frame (k : Keys) (s : State) :
    endWait k s = { s with v := (endWait k s).v, wait := (endWait k s).wait } := by
  obtain ⟨x, key, -, -, he⟩ | ⟨-, he⟩ := endWait_cases k s
  · rw [he]
    rfl
  · rw [he]

/-- A key number fits a register. -/
theorem keyByte_toNat (key : Nibble) : (BitVec.ofNat 8 key.val).toNat = key.val := by
  rw [BitVec.toNat_ofNat]
  omega

/-- Settles O14: a running core's `KEYS` is `endWait` and the new key state; `newlyPressed_eq_some` and
`newlyPressed_eq_none` say which key, if any, `endWait` delivers. -/
theorem keysEventDeliversLowestNewKey : Obligations.KeysEventDeliversLowestNewKey := by
  intro s k hs
  refine ⟨(endWait k s).setKeys k, congrArg _ (keysEvent_running k hs), rfl,
    congrArg (State.setKeys · k) (endWait_frame k s), fun x key hw hnew hlow => ?_, fun h => ?_⟩
  · rw [endWait_of_newlyPressed hw (newlyPressed_eq_some.2 ⟨hnew, hlow⟩)]
    refine ⟨rfl, ?_, fun r hr => ?_⟩
    · rw [State.reg_setKeys, State.reg_setWait, State.reg_setV, if_pos rfl, keyByte_toNat]
    · rw [State.reg_setKeys, State.reg_setWait, State.reg_setV, if_neg hr]
  · rw [endWait_eq_self (h.imp_right newlyPressed_eq_none.2)]
    exact ⟨rfl, rfl⟩

theorem tickEvent_wait (s : State) : (tickEvent s).wait = s.wait := by
  cases hstatus : s.status with
  | halted e => rw [tickEvent_halted hstatus]
  | running => rw [tickEvent_running hstatus, State.setSt_wait, State.setDt_wait]

/-- A `KEYS` that changes `wait` ends a wait with the lowest newly pressed key (R164). -/
theorem keysEvent_wait_changed {k : Keys} {s : State} {x : Nibble} (hw : s.wait = some x)
    (hne : (keysEvent k s).wait ≠ some x) :
    (keysEvent k s).wait = none ∧ ∃ key, newlyPressed s.keys k = some key ∧
      (keysEvent k s).reg x = BitVec.ofNat 8 key.val := by
  cases hstatus : s.status with
  | halted e =>
    rw [keysEvent_halted k hstatus] at hne
    exact absurd hw hne
  | running =>
    rw [keysEvent_running k hstatus] at hne ⊢
    cases hn : newlyPressed s.keys k with
    | none =>
      rw [endWait_eq_self (.inr hn)] at hne
      exact absurd hw hne
    | some key =>
      rw [endWait_of_newlyPressed hw hn]
      refine ⟨rfl, key, rfl, ?_⟩
      rw [State.reg_setKeys, State.reg_setWait, State.reg_setV, if_pos rfl]

/-- Settles O11: of the four events, a `STEP` (`stepEvent_waiting`) and a `TICK` (`tickEvent_wait`) hold
the wait, `KEYS` ends it only as `keysEvent_wait_changed` says, and `INIT` leaves none. -/
theorem onlyKeysOrInitEndTheWait : Obligations.OnlyKeysOrInitEndTheWait := by
  intro s t x hw h hne
  obtain ⟨u, hu, he⟩ | ⟨es, -, he⟩ | ⟨k, es, hev, he⟩ | ⟨rom, la, es, hev, he⟩ := step_cases s <;>
    rw [he] at h
  · have huw : u.wait = some x := by
      obtain ⟨rfl, -⟩ | ⟨es, -, rfl⟩ := hu <;> exact hw
    obtain rfl := Host.Outcome.next.inj ((stepEvent_waiting huw).symm.trans h)
    exact absurd huw hne
  · obtain rfl := Host.Outcome.next.inj h
    exact absurd ((tickEvent_wait (s.setHostEvents es)).trans hw) hne
  · obtain rfl := Host.Outcome.next.inj h
    obtain ⟨hnone, key, hkey, hreg⟩ := keysEvent_wait_changed (s := s.setHostEvents es) hw hne
    exact ⟨hnone, .inl ⟨k, es, key, hev, hkey, hreg⟩⟩
  · obtain ⟨-, rfl⟩ := initEvent_eq_next.1 h
    exact ⟨rfl, .inr ⟨rom, la, es, hev⟩⟩

end Sys2Proof.Machine
end

section
/-! PROOFS. The random-number instruction (R170, R171): the byte it draws, and what it leaves. -/

namespace Sys2Proof.Machine

/-! ## The byte drawn (R171) -/

theorem nextRandom_of_cons {s : State} {b : Byte} {bs : List Byte} (h : s.rndFeed = b :: bs) :
    s.nextRandom = b := by
  rw [State.nextRandom, h]

theorem nextRandom_of_nil {s : State} (h : s.rndFeed = []) :
    s.nextRandom = Config.randomByte s.rndDraws := by
  rw [State.nextRandom, h]

/-! ## The instruction (R170) -/

/-- What `Cxkk` does, wherever its byte comes from. -/
theorem rnd_spec (x : Nibble) (kk : Byte) (s : State) :
    ∃ t, exec (.rnd x kk) s = .next t ∧ t.reg x = s.nextRandom &&& kk ∧
      t.rndFeed = s.rndFeed.tail ∧ t.rndDraws = s.rndDraws + 1 ∧
      (∀ r, r ≠ x → t.reg r = s.reg r) ∧ t.pc = s.pc + 2#16 ∧
      t = { s with v := t.v, pc := t.pc, rndFeed := t.rndFeed, rndDraws := t.rndDraws } := by
  refine ⟨_, rfl, ?_, rfl, rfl, fun r hr => ?_, rfl, rfl⟩
  · rw [State.reg_advance, State.reg_consumeRandom, State.reg_setV, if_pos rfl]
  · rw [State.reg_advance, State.reg_consumeRandom, State.reg_setV, if_neg hr]

/-- Settles O51: `rnd_spec`, with the byte of `nextRandom_of_cons` or of `nextRandom_of_nil`; a bit of
the result is one of both the byte and the mask. -/
theorem randomIsMasked : Obligations.RandomIsMasked := by
  intro x kk s
  obtain ⟨t, he, hx, hfeed, hdraws, hframe⟩ := rnd_spec x kk s
  refine ⟨t, he, fun b bs h => ⟨?_, ?_⟩, fun h => ⟨?_, ?_⟩, hdraws, fun k hk => ?_, hframe⟩
  · rw [hx, nextRandom_of_cons h]
  · rw [hfeed, h, List.tail_cons]
  · rw [hx, nextRandom_of_nil h]
  · rw [hfeed, h, List.tail_nil]
  · rw [hx, BitVec.getLsbD_and, hk, Bool.and_false]

end Sys2Proof.Machine
end

section
/-! PROOFS. Errors, the halt and ticks (R180 to R191): which instruction raises what, what a halted core
ignores, and what any number of `TICK`s leaves in the timers. -/

namespace Sys2Proof.Machine

/-! ## What an error changes, and what raises it (R181, R184, R185) -/

theorem exec_call_overflow (nnn : Addr12) {s : State} (h : s.sp.toNat = 16) :
    exec (.call nnn) s = .next (s.setStatus (.halted .stackOverflow)) :=
  callTo_overflow _ h

theorem exec_ret_underflow {s : State} (h : s.sp.toNat = 0) :
    exec .ret s = .next (s.setStatus (.halted .stackUnderflow)) :=
  returnFrom_underflow h

/-- An execution changes `status` only by raising an error, which changes nothing else (R181). -/
theorem exec_status_changed {i : Instr} {s t : State} (h : exec i s = .next t)
    (hne : t.status ≠ s.status) : ∃ e, Raises i s e ∧ t = s.setStatus (.halted e) := by
  cases executes_of_exec h with
  | raised he => exact ⟨_, he, rfl⟩
  | advanced _ hsame => exact absurd hsame.status hne
  | called | returned | stored | skipped | jumped => exact absurd rfl hne

/-- Only the two stack instructions and those with a data access raise (R184, R185, R187). -/
theorem instr_of_raises {i : Instr} {s : State} {e : HaltError} (h : Raises i s e) :
    (∃ nnn, i = .call nnn) ∨ i = .ret ∨ 0 < dataCells i := by
  cases e with
  | invalidOpcode w a => exact h.elim
  | stackOverflow => exact .inl h.2
  | stackUnderflow => exact .inr (.inl h.2)
  | memoryOutOfBounds a => exact .inr (.inr (Nat.pos_of_ne_zero (checkRange_eq_some.1 h).1))

/-- A running core that an instruction halts has met that error's condition. -/
theorem raises_of_exec_halted {i : Instr} {s t : State} {e : HaltError} (hrun : s.status = .running)
    (h : exec i s = .next t) (hhalt : t.status = .halted e) : Raises i s e := by
  obtain ⟨e', he', rfl⟩ := exec_status_changed h (by simp [hrun, hhalt])
  cases hhalt
  exact he'

/-- Settles O53: a changed `status` is a raised error (`exec_status_changed`), and `instr_of_raises` says
whose. -/
theorem errorsChangeOnlyStatus : Obligations.ErrorsChangeOnlyStatus := by
  intro i s t h hne
  obtain ⟨e, he, rfl⟩ := exec_status_changed h hne
  exact ⟨rfl, ⟨e, rfl⟩, instr_of_raises he⟩

/-- Settles O56: the two stack instructions raise at the two ends of the stack; the converse is
`raises_of_exec_halted`. -/
theorem stackErrorsAreThoseOfCallAndReturn : Obligations.StackErrorsAreThoseOfCallAndReturn :=
  fun _ => ⟨fun nnn h => ⟨_, exec_call_overflow nnn h, rfl, rfl⟩,
    fun h => ⟨_, exec_ret_underflow h, rfl, rfl⟩,
    fun _ _ hrun h => ⟨raises_of_exec_halted hrun h, raises_of_exec_halted hrun h⟩⟩

/-! ## A halted core (R182, R210) -/

/-- Settles O9: each of the three events has its rule for a halted core; an `INIT` that R211 accepts is
performed in any state. -/
theorem haltedIsTerminalButForInit : Obligations.HaltedIsTerminalButForInit :=
  fun _ _ hs => ⟨stepEvent_halted hs, congrArg _ (tickEvent_halted hs),
    fun k => congrArg _ (keysEvent_halted k hs),
    fun _ _ haccepts => ⟨_, initEvent_eq_next.2 ⟨haccepts, rfl⟩, rfl, rfl⟩⟩

/-! ## Ticks (R190, R191) -/

/-- A `TICK` writes the two timers alone. -/
theorem tickEvent_frame (s : State) :
    tickEvent s = { s with dt := (tickEvent s).dt, st := (tickEvent s).st } := by
  have hcases : tickEvent s = s ∨ tickEvent s = (s.setDt (countDown s.dt)).setSt (countDown s.st) := by
    cases hs : s.status with
    | running => exact .inr (tickEvent_running hs)
    | halted e => exact .inl (tickEvent_halted hs)
  obtain he | he := hcases
  · rw [he]
  · rw [he]
    rfl

/-- Settles O12: the frame is `tickEvent_frame`, the timers those of `tickEvent_running`, whose
`countDown` clamps as subtraction of naturals does. -/
theorem tickDecrementsBothTimers : Obligations.TickDecrementsBothTimers := by
  refine fun s => ⟨_, rfl, tickEvent_frame s, fun hs => ?_, fun _ hs => tickEvent_halted hs⟩
  have hclamp (n : Nat) : n - 1 = if 0 < n then n - 1 else n := by split <;> omega
  rw [tickEvent_running hs]
  exact ⟨(countDown_toNat s.dt).trans (hclamp _), (countDown_toNat s.st).trans (hclamp _)⟩

theorem countDown_iterate_toNat (b : Byte) (j : Nat) : (countDown^[j] b).toNat = b.toNat - j := by
  induction j with
  | zero => rfl
  | succ j ih => rw [Function.iterate_succ_apply', countDown_toNat, ih, Nat.sub_sub]

/-- Ticks count the two timers down, each on its own, and do nothing else. -/
theorem tickEvent_iterate {s : State} (hs : s.status = .running) (j : Nat) :
    tickEvent^[j] s = (s.setDt (countDown^[j] s.dt)).setSt (countDown^[j] s.st) := by
  induction j with
  | zero => rfl
  | succ j ih =>
    simp only [Function.iterate_succ_apply', ih]
    exact tickEvent_running hs

/-- Settles O13: the timers after `j` ticks are those of `tickEvent_iterate`, as numbers those of
`countDown_iterate_toNat`. -/
theorem timersCountTicks : Obligations.TimersCountTicks := by
  intro s j hs
  have hst := countDown_iterate_toNat s.st j
  rw [tickEvent_iterate hs]
  refine ⟨countDown_iterate_toNat s.dt j, hst, ?_, rfl⟩
  rw [beepOut_eq_true, State.setSt_st, hst]
  exact Nat.sub_pos_iff_lt

end Sys2Proof.Machine
end

section
/-! PROOFS. Reset (R210 to R212): what an accepted `INIT` leaves in every piece of state, the reset
state as an `INIT`, and the invariant there. -/

namespace Sys2Proof.Machine

/-! ## Memory after an `INIT` (R57, R58, R210) -/

theorem inFont_eq_false {a : Nat} : inFont a = false ↔ ¬ (0x050 ≤ a ∧ a ≤ 0x09F) := by
  rw [← inFont_eq_true, Bool.not_eq_true]

/-- R58's table: a number a glyph, two hexadecimal digits a byte, the top row first. -/
def glyphTable : List Nat :=
  [0xF0909090F0, 0x2060202070, 0xF010F080F0, 0xF010F010F0, 0x9090F01010, 0xF080F010F0,
    0xF080F090F0, 0xF010204040, 0xF090F090F0, 0xF090F010F0, 0xF090F09090, 0xE090E090E0,
    0xF0808080F0, 0xE0909090E0, 0xF080F080F0, 0xF080F08080]

/-- The 80 bytes of the model's font are those of R58's table. -/
theorem fontBytes_eq_glyphTable : ∀ d < 16, ∀ j < 5,
    (fontBytes.getD (5 * d + j) 0#8).toNat = glyphTable.getD d 0 / 256 ^ (4 - j) % 256 := by
  decide

/-- Row `j` of the glyph of digit `d` in the reset contents of Memory. -/
theorem resetByte_glyph {d j : Nat} (hd : d < 16) (hj : j < 5) :
    (resetByte (0x050 + 5 * d + j)).toNat = glyphTable.getD d 0 / 256 ^ (4 - j) % 256 := by
  have hfont : inFont (0x050 + 5 * d + j) = true := inFont_eq_true.2 (by omega)
  have hindex : 0x050 + 5 * d + j - Config.fontBase = 5 * d + j := by
    simp only [Config.fontBase]
    omega
  rw [resetByte, if_pos hfont, hindex, fontBytes_eq_glyphTable d hd j hj]

/-- Outside the ROM an `INIT` leaves the reset contents. -/
theorem byte_initState_out {rom : List Byte} {la : Word} (s : State) {a : Nat}
    (h : ¬ (la.toNat ≤ a ∧ a < la.toNat + rom.length)) :
    (initState rom la s).byte a = resetByte a :=
  Memory.read_writeBytes_out [] la.toNat rom h

/-- An accepted ROM leaves every glyph intact (R211). -/
theorem byte_initState_glyph {rom : List Byte} {la : Word} (haccepts : initAccepts rom la = true)
    (s : State) {d j : Nat} (hd : d < 16) (hj : j < 5) :
    ((initState rom la s).byte (0x050 + 5 * d + j)).toNat =
      glyphTable.getD d 0 / 256 ^ (4 - j) % 256 := by
  obtain ⟨-, -, hclear⟩ := initAccepts_iff.1 haccepts
  have hfont : inFont (0x050 + 5 * d + j) = true := inFont_eq_true.2 (by omega)
  have hkept : (initState rom la s).byte (0x050 + 5 * d + j) = resetByte (0x050 + 5 * d + j) :=
    read_writeBytes_font hclear hfont
  rw [hkept, resetByte_glyph hd hj]

/-! ## The whole record (R210, R211) -/

/-- R211 with the font region written out. -/
theorem initAccepts_iff_font {rom : List Byte} {la : Word} :
    initAccepts rom la = true ↔
      la.toNat + rom.length ≤ 0x1000 ∧ la.toNat ≤ 0xFFF ∧
        ∀ k, k < rom.length → ¬ (0x050 ≤ la.toNat + k ∧ la.toNat + k ≤ 0x09F) := by
  simp only [initAccepts_iff, inFont_eq_false]

/-- Settles O15: an accepted `INIT` leaves `initState`, whose Memory is the ROM's bytes over the reset
contents; any other is refused. -/
theorem initWritesTheWholeRecord : Obligations.InitWritesTheWholeRecord := by
  refine fun s rom la => ⟨fun h => ?_, fun h => ?_⟩
  · have haccepts := initAccepts_iff_font.2 h
    exact
      ⟨initState rom la s, initEvent_eq_next.2 ⟨haccepts, rfl⟩,
        fun r => Vector.getElem_replicate r.isLt, rfl, rfl, rfl,
        fun k => Vector.getElem_replicate k.isLt, rfl, rfl,
        fun k hk => Memory.read_writeBytes_in Memory.wf_nil h.1 hk,
        fun a ha => byte_initState_out s ha,
        fun d j hd hj => byte_initState_glyph haccepts s hd hj,
        fun a ha hfont => (byte_initState_out s ha).trans
          (Memory.resetByte_of_not_inFont (inFont_eq_false.2 hfont)),
        pixel_of_fb_blank rfl, fun k => Vector.getElem_replicate k.isLt,
        rfl, rfl, rfl, rfl, rfl, rfl, rfl⟩
  · exact initEvent_eq_refused.2 ⟨eq_false_of_ne_true (mt initAccepts_iff_font.1 h), rfl⟩

/-! ## The reset state (R210, R212) -/

/-- Settles O16: R211 allows the empty ROM, and what it leaves is the reset state; an empty Memory reads
as the reset contents. -/
theorem resetIsInitOfTheEmptyRom : Obligations.ResetIsInitOfTheEmptyRom := by
  intro s hparams hevents hfeed hdraws
  have haccepts : initAccepts [] 0x200#16 = true := by decide
  have hreset : State.reset = initState [] 0x200#16 s := by
    rw [initState, hparams, hevents, hfeed, hdraws]
    rfl
  exact ⟨initEvent_eq_next.2 ⟨haccepts, hreset⟩, fun _ => rfl,
    fun _ ha => Memory.resetByte_of_not_inFont (inFont_eq_false.2 ha), rfl⟩

/-- Settles O58: the reset state is one that an `INIT` leaves (O16), and every `INIT` establishes the
invariant. -/
theorem resetMeetsTheInvariant : Obligations.ResetMeetsTheInvariant :=
  inv_of_initEvent (resetIsInitOfTheEmptyRom State.reset rfl rfl rfl rfl).1

end Sys2Proof.Machine
end
